-- ==== Sys2Proof/Word.lean ====
section
/-! DEFINITION. The machine's word and the byte of its output port (spec/00_scope.md R6, R10). -/

namespace Sys2Proof

/-- A 32-bit word: one bit pattern, read as `u(w)` by `toNat` and as `s(w)` by `toInt` (R10). -/
abbrev Word := BitVec 32

/-- One character of the environment port, 0 to 255 (R171). -/
abbrev Byte := BitVec 8

end Sys2Proof
end

