-- ==== Sys2Proof/Syntax.lean ====
section
/-! DEFINITION. The instructions: one constructor for each of the 46 rows of spec/opcode_table.json, carrying every field
of its shape, the unused ones too (spec/30_encoding.md R71 to R76, R83, R86). -/

namespace Sys2Proof

/-- The eight general registers by the names of R21. -/
inductive Reg where
  | gp | sp | fp | r3 | r4 | r5 | r6 | ra
  deriving DecidableEq, Repr

/-- The computational shape's operand fields (R72). -/
structure CompFields where
  rt : Reg
  ot : BitVec 9
  rs : Reg
  os : BitVec 9
  deriving DecidableEq, Repr

/-- The other-computational shape's operand fields (R73). -/
structure OthcFields where
  reg    : Reg
  offset : BitVec 9
  arg    : BitVec 12
  deriving DecidableEq, Repr

/-- The immediate shape's operand fields (R74). -/
structure ImmFields where
  reg    : Reg
  offset : BitVec 9
  immed  : BitVec 16
  deriving DecidableEq, Repr

/-- The jump shape's operand field (R75). -/
structure JumpFields where
  addr : BitVec 28
  deriving DecidableEq, Repr

/-- The system-call shape's operand fields; its `code` field is what selects the constructor (R76). -/
structure SysFields where
  reg    : Reg
  offset : BitVec 9
  deriving DecidableEq, Repr

/-- One constructor per instruction (R86), in the order of the opcode table. -/
inductive Instr where
  -- computational (R79)
  | nop (f : CompFields)
  | add (f : CompFields)
  | sub (f : CompFields)
  | cpw (f : CompFields)
  | cpr (f : CompFields)
  | and (f : CompFields)
  | bor (f : CompFields)
  | nor (f : CompFields)
  | xor (f : CompFields)
  | lwr (f : CompFields)
  | swr (f : CompFields)
  | sca (f : CompFields)
  | neg (f : CompFields)
  -- other-computational (R80)
  | lit (f : OthcFields)
  | ari (f : OthcFields)
  | sri (f : OthcFields)
  | mul (f : OthcFields)
  | div (f : OthcFields)
  | cfhi (f : OthcFields)
  | cflo (f : OthcFields)
  | sll (f : OthcFields)
  | srl (f : OthcFields)
  | jmp (f : OthcFields)
  | csi (f : OthcFields)
  | jrel (f : OthcFields)
  -- immediate (R78)
  | addi (f : ImmFields)
  | andi (f : ImmFields)
  | bori (f : ImmFields)
  | nori (f : ImmFields)
  | xori (f : ImmFields)
  | beq (f : ImmFields)
  | bgez (f : ImmFields)
  | bgtz (f : ImmFields)
  | blez (f : ImmFields)
  | bltz (f : ImmFields)
  | bne (f : ImmFields)
  -- jump (R78)
  | jmpa (f : JumpFields)
  | call (f : JumpFields)
  | rtn (f : JumpFields)
  -- system calls (R81)
  | exit (f : SysFields)
  | pstr (f : SysFields)
  | pint (f : SysFields)
  | pch (f : SysFields)
  | rch (f : SysFields)
  | stra (f : SysFields)
  | notr (f : SysFields)
  deriving DecidableEq, Repr

/-- What the decoder answers: decoding is total, a word is one of the 46 instructions or explicitly unrecognized
(R84, R86). -/
inductive Decoded where
  | insn (i : Instr)
  | unrecognized (iw : Word)
  deriving DecidableEq, Repr

end Sys2Proof
end

