-- ==== Sys2Proof/Decode.lean ====
section
/-! DEFINITION. The decoder and the encoder, from the tables of spec/30_encoding.md. The numbers (field positions of R71,
register numbers of R21, codes of R78 to R81) are the spec's decisions D1 to D6 and stand in this file alone (log
entry 15), so that a corrected table replaces them without touching a meaning. -/

namespace Sys2Proof

/-- The register a 3-bit field names (R20, R21). -/
def Reg.ofField (b : BitVec 3) : Reg :=
  match b.toNat with
  | 0 => .gp
  | 1 => .sp
  | 2 => .fp
  | 3 => .r3
  | 4 => .r4
  | 5 => .r5
  | 6 => .r6
  | _ => .ra

/-- The number of a register (R21). -/
def Reg.field : Reg → BitVec 3
  | .gp => 0#3
  | .sp => 1#3
  | .fp => 2#3
  | .r3 => 3#3
  | .r4 => 4#3
  | .r5 => 5#3
  | .r6 => 6#3
  | .ra => 7#3

/-- `op = iw[31:28]` (R71). -/
def opField (w : Word) : BitVec 4 := w.extractLsb' 28 4

/-- `func = iw[3:0]` (R72, R73). -/
def funcField (w : Word) : BitVec 4 := w.extractLsb' 0 4

/-- `code = iw[15:4]` (R76). -/
def codeField (w : Word) : BitVec 12 := w.extractLsb' 4 12

/-- `rt = iw[27:25]`, `ot = iw[24:16]`, `rs = iw[15:13]`, `os = iw[12:4]` (R72). -/
def compFields (w : Word) : CompFields where
  rt := Reg.ofField (w.extractLsb' 25 3)
  ot := w.extractLsb' 16 9
  rs := Reg.ofField (w.extractLsb' 13 3)
  os := w.extractLsb' 4 9

/-- `reg = iw[27:25]`, `offset = iw[24:16]`, `arg = iw[15:4]` (R73). -/
def othcFields (w : Word) : OthcFields where
  reg := Reg.ofField (w.extractLsb' 25 3)
  offset := w.extractLsb' 16 9
  arg := w.extractLsb' 4 12

/-- `reg = iw[27:25]`, `offset = iw[24:16]`, `immed = iw[15:0]` (R74). -/
def immFields (w : Word) : ImmFields where
  reg := Reg.ofField (w.extractLsb' 25 3)
  offset := w.extractLsb' 16 9
  immed := w.extractLsb' 0 16

/-- `addr = iw[27:0]` (R75). -/
def jumpFields (w : Word) : JumpFields where
  addr := w.extractLsb' 0 28

/-- `reg = iw[27:25]`, `offset = iw[24:16]` (R76). -/
def sysFields (w : Word) : SysFields where
  reg := Reg.ofField (w.extractLsb' 25 3)
  offset := w.extractLsb' 16 9

/-- The computational family's function codes (R79). -/
def decodeComp (w : Word) : Decoded :=
  match (funcField w).toNat with
  | 0 => .insn (.nop (compFields w))
  | 1 => .insn (.add (compFields w))
  | 2 => .insn (.sub (compFields w))
  | 3 => .insn (.cpw (compFields w))
  | 4 => .insn (.cpr (compFields w))
  | 5 => .insn (.and (compFields w))
  | 6 => .insn (.bor (compFields w))
  | 7 => .insn (.nor (compFields w))
  | 8 => .insn (.xor (compFields w))
  | 9 => .insn (.lwr (compFields w))
  | 10 => .insn (.swr (compFields w))
  | 11 => .insn (.sca (compFields w))
  | 13 => .insn (.neg (compFields w))
  | _ => .unrecognized w

/-- The syscall codes (R81). -/
def decodeSys (w : Word) : Decoded :=
  match (codeField w).toNat with
  | 1 => .insn (.exit (sysFields w))
  | 2 => .insn (.pstr (sysFields w))
  | 3 => .insn (.pint (sysFields w))
  | 4 => .insn (.pch (sysFields w))
  | 5 => .insn (.rch (sysFields w))
  | 2046 => .insn (.stra (sysFields w))
  | 2047 => .insn (.notr (sysFields w))
  | _ => .unrecognized w

/-- The other-computational family's function codes; 15 selects a system call (R80). -/
def decodeOthc (w : Word) : Decoded :=
  match (funcField w).toNat with
  | 1 => .insn (.lit (othcFields w))
  | 2 => .insn (.ari (othcFields w))
  | 3 => .insn (.sri (othcFields w))
  | 4 => .insn (.mul (othcFields w))
  | 5 => .insn (.div (othcFields w))
  | 6 => .insn (.cfhi (othcFields w))
  | 7 => .insn (.cflo (othcFields w))
  | 8 => .insn (.sll (othcFields w))
  | 9 => .insn (.srl (othcFields w))
  | 10 => .insn (.jmp (othcFields w))
  | 11 => .insn (.csi (othcFields w))
  | 12 => .insn (.jrel (othcFields w))
  | 15 => decodeSys w
  | _ => .unrecognized w

/-- `Decode(iw)`: the outer opcode first, then the inner codes (R77, R78). All 16 values of `op` are assigned, so the
last arm is `op = 15`. -/
def decode (w : Word) : Decoded :=
  match (opField w).toNat with
  | 0 => decodeComp w
  | 1 => decodeOthc w
  | 2 => .insn (.addi (immFields w))
  | 3 => .insn (.andi (immFields w))
  | 4 => .insn (.bori (immFields w))
  | 5 => .insn (.nori (immFields w))
  | 6 => .insn (.xori (immFields w))
  | 7 => .insn (.beq (immFields w))
  | 8 => .insn (.bgez (immFields w))
  | 9 => .insn (.bgtz (immFields w))
  | 10 => .insn (.blez (immFields w))
  | 11 => .insn (.bltz (immFields w))
  | 12 => .insn (.bne (immFields w))
  | 13 => .insn (.jmpa (jumpFields w))
  | 14 => .insn (.call (jumpFields w))
  | _ => .insn (.rtn (jumpFields w))

/-- The instruction the decoder reads from a row of the opcode table: `w` numbered as the table numbers its bits, the
bits above `nbits` being 0. An instruction is one word (R70), so the word is the instruction. -/
def decodeTableWord (nbits w : Nat) : Option Instr :=
  match decode (BitVec.ofNat 32 (w % 2 ^ nbits)) with
  | .insn i => some i
  | .unrecognized _ => none

/-- The computational shape as a word, `op = 0`, fields most significant first (R71, R72). -/
def compWord (f : CompFields) (func : BitVec 4) : Word :=
  0#4 ++ f.rt.field ++ f.ot ++ f.rs.field ++ f.os ++ func

/-- The other-computational shape as a word, `op = 1` (R71, R73). -/
def othcWord (f : OthcFields) (func : BitVec 4) : Word :=
  1#4 ++ f.reg.field ++ f.offset ++ f.arg ++ func

/-- The immediate shape as a word (R71, R74). -/
def immWord (op : BitVec 4) (f : ImmFields) : Word :=
  op ++ f.reg.field ++ f.offset ++ f.immed

/-- The jump shape as a word (R71, R75). -/
def jumpWord (op : BitVec 4) (f : JumpFields) : Word :=
  op ++ f.addr

/-- The system-call shape as a word, `op = 1`, `func = 15` (R71, R76). -/
def sysWord (f : SysFields) (code : BitVec 12) : Word :=
  1#4 ++ f.reg.field ++ f.offset ++ code ++ 15#4

/-- `Encode(i)`: each field at its position of R71, with the codes of R78 to R81 (R85). -/
def encode : Instr → Word
  | .nop f => compWord f 0#4
  | .add f => compWord f 1#4
  | .sub f => compWord f 2#4
  | .cpw f => compWord f 3#4
  | .cpr f => compWord f 4#4
  | .and f => compWord f 5#4
  | .bor f => compWord f 6#4
  | .nor f => compWord f 7#4
  | .xor f => compWord f 8#4
  | .lwr f => compWord f 9#4
  | .swr f => compWord f 10#4
  | .sca f => compWord f 11#4
  | .neg f => compWord f 13#4
  | .lit f => othcWord f 1#4
  | .ari f => othcWord f 2#4
  | .sri f => othcWord f 3#4
  | .mul f => othcWord f 4#4
  | .div f => othcWord f 5#4
  | .cfhi f => othcWord f 6#4
  | .cflo f => othcWord f 7#4
  | .sll f => othcWord f 8#4
  | .srl f => othcWord f 9#4
  | .jmp f => othcWord f 10#4
  | .csi f => othcWord f 11#4
  | .jrel f => othcWord f 12#4
  | .addi f => immWord 2#4 f
  | .andi f => immWord 3#4 f
  | .bori f => immWord 4#4 f
  | .nori f => immWord 5#4 f
  | .xori f => immWord 6#4 f
  | .beq f => immWord 7#4 f
  | .bgez f => immWord 8#4 f
  | .bgtz f => immWord 9#4 f
  | .blez f => immWord 10#4 f
  | .bltz f => immWord 11#4 f
  | .bne f => immWord 12#4 f
  | .jmpa f => jumpWord 13#4 f
  | .call f => jumpWord 14#4 f
  | .rtn f => jumpWord 15#4 f
  | .exit f => sysWord f 1#12
  | .pstr f => sysWord f 2#12
  | .pint f => sysWord f 3#12
  | .pch f => sysWord f 4#12
  | .rch f => sysWord f 5#12
  | .stra f => sysWord f 2046#12
  | .notr f => sysWord f 2047#12

/-- The word of a decoded value: an unrecognized word stands for itself (R86). -/
def Decoded.word : Decoded → Word
  | .insn i => encode i
  | .unrecognized w => w

end Sys2Proof
end

