-- ==== Sys2Proof/Config.lean ====
section
/-! DEFINITION. What is fixed for the machine: the size of its memory, the five configuration registers, the
configuration inputs, and the open parameter STR_LAYOUT (spec/00_scope.md R6, R8, R9; spec/10_state.md R31). -/

namespace Sys2Proof

/-- `MEMORY_SIZE`: the number of words of memory (R6, R28). -/
abbrev memorySize : Nat := 32768

/-- The open parameter `STR_LAYOUT`: how `PSTR` finds characters in words (R174). -/
inductive StrLayout where
  | packedLe
  | wordPerChar
  deriving DecidableEq, Repr

/-- The five 32-bit configuration registers, read-only after reset (R31). -/
structure ConfigRegs where
  textStart   : Word
  textLength  : Word
  dataStart   : Word
  dataLength  : Word
  stackBottom : Word
  deriving DecidableEq, Repr

/-- The configuration inputs, sampled at reset (R8), with the open parameter a model takes beside them (R9). -/
structure ConfigInputs where
  regs      : ConfigRegs
  traceInit : Bool
  strLayout : StrLayout
  deriving DecidableEq, Repr

/-- The configuration `State.reset` is stated for: no program loaded (`text_length = data_length = 0`) and the segment
addresses of the vector state of spec/95_test_vectors.md. It satisfies the check of R222.
DESIGN CHOICE (log entry 3), unsafe: the spec leaves the inputs to the host. -/
def ConfigInputs.standard : ConfigInputs where
  regs := { textStart := 0, textLength := 0, dataStart := 1024, dataLength := 0, stackBottom := 4096 }
  traceInit := false
  strLayout := .packedLe

end Sys2Proof
end

