-- ==== Sys2Proof/Machine/State.lean ====
section
/-! DEFINITION. The machine's state, plain data: everything spec/10_state.md gives the machine (R20 to R32), the answers
the host will give and the requests and trace events issued so far (spec/00_scope.md R13), the reasons a step can stop,
and the state after reset (R33). -/

namespace Sys2Proof.Machine

/-- The eight general registers, one 32-bit word each (R20), under the names of R21. -/
structure RegFile where
  gp : Word
  sp : Word
  fp : Word
  r3 : Word
  r4 : Word
  r5 : Word
  r6 : Word
  ra : Word
  deriving DecidableEq, Repr

/-- One listed cell of memory: a word address and the 32-bit word there. The word is the smallest unit the spec addresses
(R51, R55), so a cell holds a word and not a byte (DEDUCED, log entry 1). -/
abbrev WordCell := Nat × Word

/-- `mem` (R28): the cells that do not hold 0, by rising address; an unlisted address reads 0 (R33). -/
abbrev Memory := List WordCell

/-- A fault with the `info` the status interface shows beside it, in the order of the codes of R191, which
`FaultReason.code` gives. -/
inductive FaultReason where
  | pcOutOfRange (pc : Word)
  | unrecognizedInstruction (iw : Word)
  | divideByZero
  | addressOutOfRange (addr : Word)
  deriving DecidableEq, Repr

/-- `run` (R30). The exit code is the 32-bit word `sext_9(offset)` of R172, read signed. -/
inductive RunState where
  | running
  | halted (exitCode : Word)
  | faulted (reason : FaultReason) (faultPc : Word)
  deriving DecidableEq, Repr

/-- What the host answers to `Env.InChar` (R171, R177): a byte, the end-of-input word, or nothing ever (S10 of
spec/93_implementation_defined.md). -/
inductive CharAnswer where
  | byte (b : Byte)
  | endOfInput
  | never
  deriving DecidableEq, Repr

/-- A request on the environment port (R171). -/
inductive EnvRequest where
  | outStr (bytes : List Byte)
  | outInt (n : Int)
  | outChar (b : Byte)
  | inChar
  | exit (code : Int)
  deriving DecidableEq, Repr

/-- A trace event (R104): the address, the word, the decoded instruction and the state before execution, with the non-zero
words of its two windows. -/
structure TraceEvent where
  pc          : Word
  iw          : Word
  insn        : Instr
  regs        : RegFile
  hi          : Word
  lo          : Word
  mem         : Memory
  globalData  : List WordCell
  stackWindow : List WordCell
  deriving DecidableEq, Repr

/-- The whole state. The first eight fields and `cfg` are the architectural state of spec/10_state.md; `strLayout` is the
open parameter of R9; `input`, `requests` and `trace` are the environment and trace interfaces of R13. -/
structure State where
  regs      : RegFile
  pc        : Word
  hi        : Word
  lo        : Word
  mem       : Memory
  tracing   : Bool
  run       : RunState
  cfg       : ConfigRegs
  strLayout : StrLayout
  input     : List CharAnswer
  requests  : List EnvRequest
  trace     : List TraceEvent
  deriving DecidableEq, Repr

/-- The reasons the model's step has no next state. The machine's own faults (R191) are not among them: the spec describes
the state they lead to, so they are next states with `run = Faulted`. -/
inductive Fault where
  /-- Raised by `step` alone, when `run` is not `Running`: in a terminal state the core has no step (R110, R196). Safe:
  nothing is claimed of a step that does not happen. -/
  | coreStopped
  /-- Raised by `RCH` alone, when the host never answers `Env.InChar`: the step does not complete (R177, S10). Safe:
  nothing is claimed of a step that does not complete. -/
  | inputNeverAnswered
  deriving DecidableEq, Repr

/-- The reasons the model refuses an instruction. -/
inductive Refusal where
  /-- Raised by `exec` alone, for an instruction of the opcode table that has no meaning yet; no arm raises it now. Safe:
  nothing is claimed of such an instruction. -/
  | notModelled (mnemonic : String)
  deriving DecidableEq, Repr

/-- What a step of this machine answers. -/
abbrev Result := Host.Outcome State Fault Refusal

/-- The registers after reset: `SP` and `FP` at `stack_bottom`, the others 0 (R33). -/
def RegFile.atReset (stackBottom : Word) : RegFile where
  gp := 0
  sp := stackBottom
  fp := stackBottom
  r3 := 0
  r4 := 0
  r5 := 0
  r6 := 0
  ra := 0

/-- The state after reset under configuration `c`, with memory as the loader left it and the answers the host will give
(R33, R221). No request has been issued and no event emitted yet. -/
def State.atReset (c : ConfigInputs) (mem : Memory) (input : List CharAnswer) : State where
  regs := RegFile.atReset c.regs.stackBottom
  pc := c.regs.textStart
  hi := 0
  lo := 0
  mem := mem
  tracing := c.traceInit
  run := .running
  cfg := c.regs
  strLayout := c.strLayout
  input := input
  requests := []
  trace := []

/-- The machine right after reset with nothing loaded: memory all 0, no input, the configuration of
`ConfigInputs.standard` (DESIGN CHOICE, log entries 3, 4, 6). -/
def State.reset : State := State.atReset ConfigInputs.standard [] []

end Sys2Proof.Machine
end

