-- ==== Sys2Proof/Machine/Ops.lean ====
section
/-! DEFINITION. The named operations over registers, memory and the other fields of the state, and the one operation that
takes a fault (spec/10_state.md, spec/20_memory.md, spec/60_exceptions.md R194). -/

namespace Sys2Proof.Machine

/-! ## Registers -/

/-- A register's word. -/
def RegFile.get (x : RegFile) : Reg → Word
  | .gp => x.gp
  | .sp => x.sp
  | .fp => x.fp
  | .r3 => x.r3
  | .r4 => x.r4
  | .r5 => x.r5
  | .r6 => x.r6
  | .ra => x.ra

/-- The registers with one replaced; none is hard-wired (R22). -/
def RegFile.set (x : RegFile) (r : Reg) (v : Word) : RegFile :=
  match r with
  | .gp => { x with gp := v }
  | .sp => { x with sp := v }
  | .fp => { x with fp := v }
  | .r3 => { x with r3 := v }
  | .r4 => { x with r4 := v }
  | .r5 => { x with r5 := v }
  | .r6 => { x with r6 := v }
  | .ra => { x with ra := v }

/-- `x[r]` (R11). -/
def State.reg (s : State) (r : Reg) : Word := s.regs.get r

/-- `x[r] <- v` (R11). -/
def State.setReg (s : State) (r : Reg) (v : Word) : State := { s with regs := s.regs.set r v }

/-! ## The other fields -/

/-- `pc <- target` (R11). -/
def State.setPc (s : State) (target : Word) : State := { s with pc := target }

/-- `HI` and `LO` are written together, by MUL and DIV alone (R27). -/
def State.setHiLo (s : State) (hi lo : Word) : State := { s with hi := hi, lo := lo }

/-- The state with another memory. -/
def State.setMem (s : State) (m : Memory) : State := { s with mem := m }

/-- `tracing <- b` (R29). -/
def State.setTracing (s : State) (b : Bool) : State := { s with tracing := b }

/-- `run <- r` (R30). -/
def State.setRun (s : State) (r : RunState) : State := { s with run := r }

/-- The answers still to come on the environment port (R171). -/
def State.setInput (s : State) (l : List CharAnswer) : State := { s with input := l }

/-- A request is issued on the environment port (R171). -/
def State.request (s : State) (q : EnvRequest) : State := { s with requests := s.requests ++ [q] }

/-- An event is emitted on the trace interface (R104). -/
def State.emit (s : State) (e : TraceEvent) : State := { s with trace := s.trace ++ [e] }

/-! ## Memory -/

/-- What an unlisted address reads as: 0 (R33). -/
def Memory.unlisted : Word := 0

/-- The word at an address (R28). -/
def Memory.read : Memory → Nat → Word
  | [], _ => Memory.unlisted
  | (k, w) :: rest, a => if k = a then w else Memory.read rest a

/-- The list with the word `v` at address `a`, in rising order, without an entry for the value an unlisted address
reads as. -/
def Memory.write : Memory → Nat → Word → Memory
  | [], a, v => if v = Memory.unlisted then [] else [(a, v)]
  | (k, w) :: rest, a, v =>
    if a < k then
      if v = Memory.unlisted then (k, w) :: rest else (a, v) :: (k, w) :: rest
    else if a = k then
      if v = Memory.unlisted then rest else (a, v) :: rest
    else (k, w) :: Memory.write rest a v

/-- The canonical form of a list of cells whose addresses are all at least `low`: addresses strictly rising, all of them
addresses of the array, no entry equal to what an unlisted address reads as. -/
def Memory.wfFrom (low : Nat) : Memory → Bool
  | [] => true
  | (k, w) :: rest => decide (low ≤ k) && decide (k < memorySize) && w != Memory.unlisted && Memory.wfFrom (k + 1) rest

/-- The canonical form of memory: equal memories are equal lists. -/
def Memory.wf (m : Memory) : Bool := Memory.wfFrom 0 m

/-- `u(addr) < 32768`: the array has a cell there (R53). -/
def inMemory (addr : Word) : Bool := decide (addr.toNat < memorySize)

/-! ## Taking a fault -/

/-- The code of a fault: 1 to 4 (R191, R7). The spec gives the code no width, so it is a number. -/
def FaultReason.code : FaultReason → Nat
  | .pcOutOfRange _ => 1
  | .unrecognizedInstruction _ => 2
  | .divideByZero => 3
  | .addressOutOfRange _ => 4

/-- The `info` recorded with a fault: the `pc`, the instruction word, none, or the address (R191). -/
def FaultReason.info : FaultReason → Option Word
  | .pcOutOfRange pc => some pc
  | .unrecognizedInstruction iw => some iw
  | .divideByZero => none
  | .addressOutOfRange addr => some addr

/-- What the status interface shows of a fault: `Faulted(code, fault_pc)`, with `info` beside it (R191; R13). -/
def RunState.faultStatus : RunState → Option (Nat × Word × Option Word)
  | .running => none
  | .halted _ => none
  | .faulted r a => some (r.code, a, r.info)

/-- The state a fault leads to: `run <- Faulted(F, a)` with `a` the address of the faulting instruction, which `pc` still
holds, and nothing else changed (R194). -/
def faultEntry (s : State) (r : FaultReason) : State := s.setRun (.faulted r s.pc)

/-- `raise F(info)` (R11, R194). There is no return from a fault (R196). -/
def raise (s : State) (r : FaultReason) : Result := .next (faultEntry s r)

/-! ## Completing an instruction -/

/-- `npc`, the address after the instruction (R105). -/
def npc (s : State) : Word := s.pc + 1

/-- The instruction's writes are done and it leaves `pc = npc` (R25, R105). -/
def complete (s : State) : Result := .next (s.setPc (npc s))

/-- The instruction's writes are done and it leaves `pc = target`; the target is not checked before the next step's
guard (R101). -/
def transferTo (s : State) (target : Word) : Result := .next (s.setPc target)

/-- `MemRead(addr, 1)`, then the rest of the instruction with the word read (R11, R53). -/
def readCell (s : State) (addr : Word) (rest : Word → Result) : Result :=
  if inMemory addr then rest (Memory.read s.mem addr.toNat) else raise s (.addressOutOfRange addr)

/-- The read of the implicit operand `top = MemRead(x[SP], 1)`, then the rest of the instruction (R108). -/
def readTop (s : State) (rest : Word → Result) : Result := readCell s (s.reg .sp) rest

/-- `MemWrite(addr, 1, v)` as the last act of an instruction that leaves `pc = npc` (R11, R53). -/
def writeCell (s : State) (addr v : Word) : Result :=
  if inMemory addr then complete (s.setMem (Memory.write s.mem addr.toNat v))
  else raise s (.addressOutOfRange addr)

end Sys2Proof.Machine
end

