-- ==== Sys2Proof/Machine/Cycle.lean ====
section
/-! DEFINITION. The parts of the step before execution: the guard, the fetch, the decode and the trace event
(spec/40_step_cycle.md R100 to R104), and the placing of one instruction where the next step fetches it. -/

namespace Sys2Proof.Machine

/-- The guard: `text_start <= a < text_start + text_length`, unsigned, without wrap (R101). -/
def inText (c : ConfigRegs) (a : Word) : Bool :=
  decide (c.textStart.toNat ≤ a.toNat) && decide (a.toNat < c.textStart.toNat + c.textLength.toNat)

/-- Guard, fetch and decode, in that order: the word and its instruction, or the fault that ends the step (R101 to
R103, R193). -/
def fetchDecode (s : State) : Except FaultReason (Word × Instr) :=
  if inText s.cfg s.pc then
    if inMemory s.pc then
      match decode (Memory.read s.mem s.pc.toNat) with
      | .insn i => .ok (Memory.read s.mem s.pc.toNat, i)
      | .unrecognized iw => .error (.unrecognizedInstruction iw)
    else .error (.addressOutOfRange s.pc)
  else .error (.pcOutOfRange s.pc)

/-- The non-zero words at the addresses `low` to `high - 1`. -/
def nonZeroWindow (m : Memory) (low high : Nat) : List WordCell :=
  m.filter fun c => decide (low ≤ c.1) && decide (c.1 < high) && c.2 != 0

/-- The trace event of the step: the state before execution, with the non-zero words of the global data,
`data_start` to `data_start + data_length - 1`, and of the stack window, `x[SP]` to `stack_bottom` (R104; their cut to the
array: DEDUCED, log entry 12). -/
def traceEvent (s : State) (iw : Word) (i : Instr) : TraceEvent where
  pc := s.pc
  iw := iw
  insn := i
  regs := s.regs
  hi := s.hi
  lo := s.lo
  mem := s.mem
  globalData := nonZeroWindow s.mem s.cfg.dataStart.toNat (s.cfg.dataStart.toNat + s.cfg.dataLength.toNat)
  stackWindow := nonZeroWindow s.mem (s.reg .sp).toNat (s.cfg.stackBottom.toNat + 1)

/-- The trace step: one event if `tracing = 1` at the start of the step (R104), whether or not the instruction then faults
(DEDUCED, log entry 11). -/
def traced (s : State) (iw : Word) (i : Instr) : State :=
  if s.tracing then s.emit (traceEvent s iw i) else s

/-- The memory with one instruction word at `a`, if the array has a cell there. -/
def placeInMemory (m : Memory) (a iw : Word) : Memory :=
  if inMemory a then Memory.write m a.toNat iw else m

/-- The text segment as it is if it holds `a`, else a text segment of the one word at `a`. -/
def placeInText (c : ConfigRegs) (a : Word) : ConfigRegs :=
  if inText c a then c else { c with textStart := a, textLength := 1 }

/-- The state with one instruction word where the next step fetches it: the word at `pc`, `pc` in the text segment, and the
core running (DESIGN CHOICE, log entry 4). -/
def placeWord (s : State) (iw : Word) : State :=
  { s with mem := placeInMemory s.mem s.pc iw, cfg := placeInText s.cfg s.pc, run := .running }

end Sys2Proof.Machine
end

