-- ==== Sys2Proof/Machine/Alu.lean ====
section
/-! DEFINITION. The arithmetic the instruction rules compute with, on exact integers and then narrowed to words:
products, quotients, shifts (spec/42_other_computational.md R134, R135, R140). Sums, differences and the bitwise
operations are those of the word type, mod 2^32 (R11, R129). -/

namespace Sys2Proof.Machine

/-- Bits 63:32 of the exact unsigned product (R134). -/
def mulHi (v1 v2 : Word) : Word := BitVec.ofNat 32 (v1.toNat * v2.toNat / 2 ^ 32)

/-- Bits 31:0 of the exact unsigned product (R134). -/
def mulLo (v1 v2 : Word) : Word := BitVec.ofNat 32 (v1.toNat * v2.toNat)

/-- `u(v1) mod u(v2)` (R135). -/
def divRem (v1 v2 : Word) : Word := BitVec.ofNat 32 (v1.toNat % v2.toNat)

/-- `u(v1) div u(v2)` (R135). -/
def divQuot (v1 v2 : Word) : Word := BitVec.ofNat 32 (v1.toNat / v2.toNat)

/-- `shl(v, h) = (u(v) * 2^h) mod 2^32`, so 0 for `h >= 32` (R140). -/
def shl (v : Word) (h : Nat) : Word := v <<< h

/-- `shr(v, h) = floor(u(v) / 2^h)`, so 0 for `h >= 32` (R140). -/
def shr (v : Word) (h : Nat) : Word := v >>> h

/-- `~(a | b)` over all 32 bits (R123, R149). -/
def norWord (a b : Word) : Word := ~~~(a ||| b)

end Sys2Proof.Machine
end

