-- ==== Sys2Proof/Machine/Operands.lean ====
section
/-! DEFINITION. How an instruction's fields become operands (spec/30_encoding.md R82, spec/40_step_cycle.md R107): the
effective address, the extensions of the immediates, the branch target and the jump address. -/

namespace Sys2Proof.Machine

/-- `sext_9` of an offset field, -256 to 255 (R82). -/
def sext9 (o : BitVec 9) : Word := o.signExtend 32

/-- `sext_12` of the argument field, -2048 to 2047 (R82). -/
def sext12 (a : BitVec 12) : Word := a.signExtend 32

/-- `zext_12` of the argument field, a shift amount of 0 to 4095 (R82). -/
def zext12 (a : BitVec 12) : Nat := a.toNat

/-- `sext_16` of the immediate (R82). -/
def sext16 (i : BitVec 16) : Word := i.signExtend 32

/-- `zext_16` of the immediate: the upper 16 bits are 0 (R82). -/
def zext16 (i : BitVec 16) : Word := i.zeroExtend 32

/-- `ea(r, o) = (x[r] + sext_9(o)) mod 2^32`, the sole addressing mode (R52, R107). -/
def ea (s : State) (r : Reg) (o : BitVec 9) : Word := s.reg r + sext9 o

/-- The taken target of a branch: `(npc + sext_16(immed)) mod 2^32` (R157). -/
def branchTarget (s : State) (immed : BitVec 16) : Word := npc s + sext16 immed

/-- `npc[31:28] ++ addr`, the target of JMPA and CALL (R163). -/
def jumpAddress (s : State) (addr : BitVec 28) : Word := (npc s).extractLsb' 28 4 ++ addr

end Sys2Proof.Machine
end

