-- ==== Sys2Proof/Machine/Computational.lean ====
section
/-! DEFINITION. The computational instructions (spec/41_computational.md R115 to R129). -/

namespace Sys2Proof.Machine

/-- The common shape of ADD, SUB, AND, BOR, NOR and XOR: `top`, then the source cell, then the target cell (R115). -/
def topBinary (s : State) (f : CompFields) (op : Word → Word → Word) : Result :=
  readTop s fun v1 =>
  readCell s (ea s f.rs f.os) fun v2 =>
  writeCell s (ea s f.rt f.ot) (op v1 v2)

/-- NOP: no effect (R116). -/
def execNop (_ : CompFields) (s : State) : Result := complete s

/-- ADD: the sum of `top` and the source cell, mod 2^32, to the target cell (R117). -/
def execAdd (f : CompFields) (s : State) : Result := topBinary s f fun v1 v2 => v1 + v2

/-- SUB: `top` minus the source cell, mod 2^32, to the target cell (R118). -/
def execSub (f : CompFields) (s : State) : Result := topBinary s f fun v1 v2 => v1 - v2

/-- CPW: the source cell to the target cell (R119). -/
def execCpw (f : CompFields) (s : State) : Result :=
  readCell s (ea s f.rs f.os) fun v => writeCell s (ea s f.rt f.ot) v

/-- CPR: the source register to the target register, no memory access (R120). -/
def execCpr (f : CompFields) (s : State) : Result := complete (s.setReg f.rt (s.reg f.rs))

/-- AND (R121). -/
def execAnd (f : CompFields) (s : State) : Result := topBinary s f fun v1 v2 => v1 &&& v2

/-- BOR (R122). -/
def execBor (f : CompFields) (s : State) : Result := topBinary s f fun v1 v2 => v1 ||| v2

/-- NOR, complemented over all 32 bits (R123). -/
def execNor (f : CompFields) (s : State) : Result := topBinary s f norWord

/-- XOR (R124). -/
def execXor (f : CompFields) (s : State) : Result := topBinary s f fun v1 v2 => v1 ^^^ v2

/-- LWR: the source cell to the target register; the address uses the old register (R125). -/
def execLwr (f : CompFields) (s : State) : Result :=
  readCell s (ea s f.rs f.os) fun v => complete (s.setReg f.rt v)

/-- SWR: the source register to the target cell (R126). -/
def execSwr (f : CompFields) (s : State) : Result := writeCell s (ea s f.rt f.ot) (s.reg f.rs)

/-- SCA: the source address itself, unread and unchecked, to the target cell (R127). -/
def execSca (f : CompFields) (s : State) : Result := writeCell s (ea s f.rt f.ot) (ea s f.rs f.os)

/-- NEG: the two's complement of the source cell to the target cell (R128). -/
def execNeg (f : CompFields) (s : State) : Result :=
  readCell s (ea s f.rs f.os) fun v => writeCell s (ea s f.rt f.ot) (0 - v)

end Sys2Proof.Machine
end

