-- ==== Sys2Proof/Machine/Flags.lean ====
section
/-! DEFINITION. The machine has no flags (spec/10_state.md R26): a conditional branch tests memory words directly. The
tests of spec/43_immediate.md R151 to R156 and the branch they steer. -/

namespace Sys2Proof.Machine

/-- `s(v) >= 0` (R153). -/
def isGez (v : Word) : Bool := decide (0 ≤ v.toInt)

/-- `s(v) > 0` (R154). -/
def isGtz (v : Word) : Bool := decide (0 < v.toInt)

/-- `s(v) <= 0` (R155). -/
def isLez (v : Word) : Bool := decide (v.toInt ≤ 0)

/-- `s(v) < 0` (R156). -/
def isLtz (v : Word) : Bool := decide (v.toInt < 0)

/-- A conditional branch: to the target when taken, else on to `npc` (R157). -/
def branch (s : State) (taken : Bool) (immed : BitVec 16) : Result :=
  if taken then transferTo s (branchTarget s immed) else complete s

end Sys2Proof.Machine
end

