-- ==== Sys2Proof/Machine/Immediate.lean ====
section
/-! DEFINITION. The immediate instructions (spec/43_immediate.md R145 to R157). -/

namespace Sys2Proof.Machine

/-- The common shape of ADDI, ANDI, BORI, NORI and XORI: the addressed cell is read, changed and written back (R145). -/
def updateCell (s : State) (f : ImmFields) (op : Word → Word) : Result :=
  readCell s (ea s f.reg f.offset) fun v => writeCell s (ea s f.reg f.offset) (op v)

/-- The common shape of BGEZ, BGTZ, BLEZ and BLTZ: the addressed cell is tested against zero (R145). -/
def branchOnCell (s : State) (f : ImmFields) (test : Word → Bool) : Result :=
  readCell s (ea s f.reg f.offset) fun v => branch s (test v) f.immed

/-- ADDI (R146). -/
def execAddi (f : ImmFields) (s : State) : Result := updateCell s f fun v => v + sext16 f.immed

/-- ANDI (R147). -/
def execAndi (f : ImmFields) (s : State) : Result := updateCell s f fun v => v &&& zext16 f.immed

/-- BORI (R148). -/
def execBori (f : ImmFields) (s : State) : Result := updateCell s f fun v => v ||| zext16 f.immed

/-- NORI, complemented over all 32 bits (R149). -/
def execNori (f : ImmFields) (s : State) : Result := updateCell s f fun v => norWord v (zext16 f.immed)

/-- XORI (R150). -/
def execXori (f : ImmFields) (s : State) : Result := updateCell s f fun v => v ^^^ zext16 f.immed

/-- BEQ: taken when `top` and the addressed cell are equal (R151). -/
def execBeq (f : ImmFields) (s : State) : Result :=
  readTop s fun v1 => readCell s (ea s f.reg f.offset) fun v2 => branch s (v1 == v2) f.immed

/-- BNE: taken when `top` and the addressed cell differ (R152). -/
def execBne (f : ImmFields) (s : State) : Result :=
  readTop s fun v1 => readCell s (ea s f.reg f.offset) fun v2 => branch s (v1 != v2) f.immed

/-- BGEZ (R153). -/
def execBgez (f : ImmFields) (s : State) : Result := branchOnCell s f isGez

/-- BGTZ (R154). -/
def execBgtz (f : ImmFields) (s : State) : Result := branchOnCell s f isGtz

/-- BLEZ (R155). -/
def execBlez (f : ImmFields) (s : State) : Result := branchOnCell s f isLez

/-- BLTZ (R156). -/
def execBltz (f : ImmFields) (s : State) : Result := branchOnCell s f isLtz

end Sys2Proof.Machine
end

