-- ==== Sys2Proof/Machine/Jump.lean ====
section
/-! DEFINITION. The jump instructions (spec/44_jump.md R160 to R166). -/

namespace Sys2Proof.Machine

/-- JMPA (R160). -/
def execJmpa (f : JumpFields) (s : State) : Result := transferTo s (jumpAddress s f.addr)

/-- CALL: the link to `RA`, then the jump (R161, R164). -/
def execCall (f : JumpFields) (s : State) : Result :=
  transferTo (s.setReg .ra (npc s)) (jumpAddress s f.addr)

/-- RTN: `pc` becomes `x[RA]` (R162). -/
def execRtn (_ : JumpFields) (s : State) : Result := transferTo s (s.reg .ra)

end Sys2Proof.Machine
end

