-- ==== Sys2Proof/Machine/OtherComputational.lean ====
section
/-! DEFINITION. The other-computational instructions (spec/42_other_computational.md R130 to R144). -/

namespace Sys2Proof.Machine

/-- LIT: the sign-extended literal to the addressed cell (R131). -/
def execLit (f : OthcFields) (s : State) : Result := writeCell s (ea s f.reg f.offset) (sext12 f.arg)

/-- ARI: the register plus the sign-extended literal, mod 2^32 (R132). -/
def execAri (f : OthcFields) (s : State) : Result := complete (s.setReg f.reg (s.reg f.reg + sext12 f.arg))

/-- SRI: the register minus the sign-extended literal, mod 2^32 (R133). -/
def execSri (f : OthcFields) (s : State) : Result := complete (s.setReg f.reg (s.reg f.reg - sext12 f.arg))

/-- MUL: the 64-bit unsigned product of `top` and the addressed cell to `HI` and `LO` (R134). -/
def execMul (f : OthcFields) (s : State) : Result :=
  readTop s fun v1 =>
  readCell s (ea s f.reg f.offset) fun v2 =>
  complete (s.setHiLo (mulHi v1 v2) (mulLo v1 v2))

/-- DIV: `top` divided by the addressed cell, unsigned, the remainder to `HI` and the quotient to `LO`; a zero divisor
is a fault (R135). -/
def execDiv (f : OthcFields) (s : State) : Result :=
  readTop s fun v1 =>
  readCell s (ea s f.reg f.offset) fun v2 =>
  if v2 = 0 then raise s .divideByZero
  else complete (s.setHiLo (divRem v1 v2) (divQuot v1 v2))

/-- CFHI: `HI` to the addressed cell (R136). -/
def execCfhi (f : OthcFields) (s : State) : Result := writeCell s (ea s f.reg f.offset) s.hi

/-- CFLO: `LO` to the addressed cell (R137). -/
def execCflo (f : OthcFields) (s : State) : Result := writeCell s (ea s f.reg f.offset) s.lo

/-- SLL: `top` shifted left by the unsigned argument, to the addressed cell (R138, R140). -/
def execSll (f : OthcFields) (s : State) : Result :=
  readTop s fun v => writeCell s (ea s f.reg f.offset) (shl v (zext12 f.arg))

/-- SRL: `top` shifted right, zero fill, by the unsigned argument, to the addressed cell (R139, R140). -/
def execSrl (f : OthcFields) (s : State) : Result :=
  readTop s fun v => writeCell s (ea s f.reg f.offset) (shr v (zext12 f.arg))

/-- JMP: `pc` becomes the word in the addressed cell (R141). -/
def execJmp (f : OthcFields) (s : State) : Result :=
  readCell s (ea s f.reg f.offset) fun t => transferTo s t

/-- CSI: the link to `RA`, `pc` becomes the word in the addressed cell, which the old registers address (R142). -/
def execCsi (f : OthcFields) (s : State) : Result :=
  readCell s (ea s f.reg f.offset) fun t => transferTo (s.setReg .ra (npc s)) t

/-- JREL: `pc` becomes `npc` plus the sign-extended offset (R143). -/
def execJrel (f : OthcFields) (s : State) : Result := transferTo s (npc s + sext9 f.offset)

end Sys2Proof.Machine
end

