-- ==== Sys2Proof/Machine/SystemCall.lean ====
section
/-! DEFINITION. The system calls (spec/45_syscall.md R170 to R180). -/

namespace Sys2Proof.Machine

/-- The four characters of a word, lowest byte first (R174). -/
def wordBytes (w : Word) : List Byte :=
  [w.extractLsb' 0 8, w.extractLsb' 8 8, w.extractLsb' 16 8, w.extractLsb' 24 8]

/-- The characters one word of a string gives, and whether the string ends in it (R174; a zero low byte of a non-zero word is
a character: DEDUCED, log entry 10). -/
def wordChars (layout : StrLayout) (w : Word) : List Byte × Bool :=
  match layout with
  | .packedLe => ((wordBytes w).takeWhile (· != 0), (wordBytes w).contains 0)
  | .wordPerChar => if w = 0 then ([], true) else ([w.extractLsb' 0 8], false)

/-- The scan of `StrAt` from address `p` over `n` more words: the characters, or the address at which the scan left the
array (R174). -/
def scanString (mem : Memory) (layout : StrLayout) : Nat → Nat → Except Nat (List Byte)
  | 0, p => .error p
  | n + 1, p =>
    match wordChars layout (Memory.read mem p) with
    | (chars, true) => .ok chars
    | (chars, false) =>
      match scanString mem layout n (p + 1) with
      | .ok more => .ok (chars ++ more)
      | .error q => .error q

/-- `StrAt(A)`: the string from address `A` to its terminator; the scan may not leave the array (R173, R174). -/
def strAt (s : State) (addr : Word) : Except Nat (List Byte) :=
  scanString s.mem s.strLayout (memorySize - addr.toNat) addr.toNat

/-- EXIT: `run <- Halted(sext_9(offset))` and `Env.Exit`, `pc` left at `npc` (R172). -/
def execExit (f : SysFields) (s : State) : Result :=
  complete ((s.setRun (.halted (sext9 f.offset))).request (.exit (sext9 f.offset).toInt))

/-- PSTR: `Env.OutStr` of the string at the addressed cell (R173). -/
def execPstr (f : SysFields) (s : State) : Result :=
  match strAt s (ea s f.reg f.offset) with
  | .ok bytes => complete (s.request (.outStr bytes))
  | .error a => raise s (.addressOutOfRange (BitVec.ofNat 32 a))

/-- PINT: `Env.OutInt` of the signed reading of the addressed cell (R175). -/
def execPint (f : SysFields) (s : State) : Result :=
  readCell s (ea s f.reg f.offset) fun v => complete (s.request (.outInt v.toInt))

/-- PCH: `Env.OutChar` of the low 8 bits of the addressed cell (R176). -/
def execPch (f : SysFields) (s : State) : Result :=
  readCell s (ea s f.reg f.offset) fun v => complete (s.request (.outChar (v.extractLsb' 0 8)))

/-- The word of the end of input, 0xFFFFFFFF (R177). -/
def endOfInputWord : Word := 0xFFFFFFFF#32

/-- The word `Env.InChar` returns and the answers left after it, or nothing if the host never answers; when no answer is
left standard input has no more bytes (R177; DESIGN CHOICE, log entry 6). -/
def nextChar : List CharAnswer → Option (Word × List CharAnswer)
  | [] => some (endOfInputWord, [])
  | .byte b :: rest => some (b.zeroExtend 32, rest)
  | .endOfInput :: rest => some (endOfInputWord, rest)
  | .never :: _ => none

/-- RCH: the address is checked, then `Env.InChar` is asked, then its word goes to the addressed cell (R177). -/
def execRch (f : SysFields) (s : State) : Result :=
  if inMemory (ea s f.reg f.offset) then
    match nextChar s.input with
    | some (c, rest) => writeCell ((s.setInput rest).request .inChar) (ea s f.reg f.offset) c
    | none => .fault .inputNeverAnswered
  else raise s (.addressOutOfRange (ea s f.reg f.offset))

/-- STRA: `tracing <- 1` (R178). -/
def execStra (_ : SysFields) (s : State) : Result := complete (s.setTracing true)

/-- NOTR: `tracing <- 0` (R179). -/
def execNotr (_ : SysFields) (s : State) : Result := complete (s.setTracing false)

end Sys2Proof.Machine
end

