-- ==== Sys2Proof/Machine/Dispatch.lean ====
section
/-! DEFINITION. The dispatch: one arm per instruction, each one call of its meaning (spec/40_step_cycle.md R106). `exec i s`
is the instruction `i` executed in the state `s` its step began with, so `s.pc` is the instruction's own address. -/

namespace Sys2Proof.Machine

def exec (i : Instr) (s : State) : Host.Outcome State Fault Refusal :=
  match i with
  | .nop f => Sys2Proof.Machine.execNop f s
  | .add f => Sys2Proof.Machine.execAdd f s
  | .sub f => Sys2Proof.Machine.execSub f s
  | .cpw f => Sys2Proof.Machine.execCpw f s
  | .cpr f => Sys2Proof.Machine.execCpr f s
  | .and f => Sys2Proof.Machine.execAnd f s
  | .bor f => Sys2Proof.Machine.execBor f s
  | .nor f => Sys2Proof.Machine.execNor f s
  | .xor f => Sys2Proof.Machine.execXor f s
  | .lwr f => Sys2Proof.Machine.execLwr f s
  | .swr f => Sys2Proof.Machine.execSwr f s
  | .sca f => Sys2Proof.Machine.execSca f s
  | .neg f => Sys2Proof.Machine.execNeg f s
  | .lit f => Sys2Proof.Machine.execLit f s
  | .ari f => Sys2Proof.Machine.execAri f s
  | .sri f => Sys2Proof.Machine.execSri f s
  | .mul f => Sys2Proof.Machine.execMul f s
  | .div f => Sys2Proof.Machine.execDiv f s
  | .cfhi f => Sys2Proof.Machine.execCfhi f s
  | .cflo f => Sys2Proof.Machine.execCflo f s
  | .sll f => Sys2Proof.Machine.execSll f s
  | .srl f => Sys2Proof.Machine.execSrl f s
  | .jmp f => Sys2Proof.Machine.execJmp f s
  | .csi f => Sys2Proof.Machine.execCsi f s
  | .jrel f => Sys2Proof.Machine.execJrel f s
  | .addi f => Sys2Proof.Machine.execAddi f s
  | .andi f => Sys2Proof.Machine.execAndi f s
  | .bori f => Sys2Proof.Machine.execBori f s
  | .nori f => Sys2Proof.Machine.execNori f s
  | .xori f => Sys2Proof.Machine.execXori f s
  | .beq f => Sys2Proof.Machine.execBeq f s
  | .bgez f => Sys2Proof.Machine.execBgez f s
  | .bgtz f => Sys2Proof.Machine.execBgtz f s
  | .blez f => Sys2Proof.Machine.execBlez f s
  | .bltz f => Sys2Proof.Machine.execBltz f s
  | .bne f => Sys2Proof.Machine.execBne f s
  | .jmpa f => Sys2Proof.Machine.execJmpa f s
  | .call f => Sys2Proof.Machine.execCall f s
  | .rtn f => Sys2Proof.Machine.execRtn f s
  | .exit f => Sys2Proof.Machine.execExit f s
  | .pstr f => Sys2Proof.Machine.execPstr f s
  | .pint f => Sys2Proof.Machine.execPint f s
  | .pch f => Sys2Proof.Machine.execPch f s
  | .rch f => Sys2Proof.Machine.execRch f s
  | .stra f => Sys2Proof.Machine.execStra f s
  | .notr f => Sys2Proof.Machine.execNotr f s

end Sys2Proof.Machine
end

