-- ==== Sys2Proof/Machine/Step.lean ====
section
/-! DEFINITION. One step: guard, fetch, decode, trace, execute (spec/40_step_cycle.md R100 to R106). -/

namespace Sys2Proof.Machine

/-- One step of the core. In a terminal state the core has no step (R110, R196). -/
def step (s : State) : Host.Outcome State Fault Refusal :=
  match s.run with
  | .running =>
    match fetchDecode s with
    | .ok (iw, i) => exec i (traced s iw i)
    | .error r => raise s r
  | .halted _ => .fault .coreStopped
  | .faulted _ _ => .fault .coreStopped

/-- The state with the instruction `w` of the opcode table where `step` fetches its next instruction. -/
def State.withFetchWord (s : State) (nbits w : Nat) : State :=
  placeWord s (BitVec.ofNat 32 (w % 2 ^ nbits))

end Sys2Proof.Machine
end

