-- ==== Sys2Proof/Machine/Boot.lean ====
section
/-! DEFINITION. What the host does before a program runs: the check of the configuration, the loader's writes and the
reset sequence (spec/70_reset_and_hazards.md R220 to R224). -/

namespace Sys2Proof.Machine

/-- The configuration check of R222: the source's invariant `0 ≤ data_start < stack_bottom < MEMORY_SIZE` and
`text_length < data_start`, and the segments in order. -/
def configValid (c : ConfigRegs) : Bool :=
  decide (c.dataStart.toNat < c.stackBottom.toNat)
    && decide (c.stackBottom.toNat < memorySize)
    && decide (c.textLength.toNat < c.dataStart.toNat)
    && decide (c.textStart.toNat + c.textLength.toNat ≤ c.dataStart.toNat)
    && decide (c.dataStart.toNat + c.dataLength.toNat ≤ c.stackBottom.toNat)

/-- The loader writes words at rising addresses from `base` (R223 (3) and (4)). -/
def loadWords (m : Memory) (base : Nat) : List Word → Memory
  | [] => m
  | w :: ws => loadWords (Memory.write m base w) (base + 1) ws

/-- The loaded memory: every cell 0, then the text words, then the data words (R223 (2) to (4)). -/
def loadImage (c : ConfigRegs) (text data : List Word) : Memory :=
  loadWords (loadWords [] c.textStart.toNat text) c.dataStart.toNat data

/-- The reset sequence over a memory: the core starts exactly when the configuration passes the check (R221, R222). It is
the only way out of a terminal state (R220). -/
def applyReset (c : ConfigInputs) (mem : Memory) (input : List CharAnswer) : Option State :=
  if configValid c.regs then some (State.atReset c mem input) else none

/-- A launch: the loader's obligations met (the segments have the lengths the header gives), then reset (R223). -/
def launch (c : ConfigInputs) (text data : List Word) (input : List CharAnswer) : Option State :=
  if text.length = c.regs.textLength.toNat && data.length = c.regs.dataLength.toNat then
    applyReset c (loadImage c.regs text data) input
  else none

end Sys2Proof.Machine
end

