-- ==== Sys2Proof/WellFormed.lean ====
section
/-! DEFINITION. Which terms are well formed (spec/30_encoding.md R83, R84, R87; spec/10_state.md R20).

Every term of `Instr` is an instruction the encoding can express: each field's type is exactly as wide as the field, and
a register field of 3 bits names a register whatever it holds (R20), so `Instr` needs no check of its own. Two checks
remain: an `unrecognized` term must hold a word that really is unrecognized (R84), and the assembler's form of an
instruction has its unused fields at 0 (R87). -/

namespace Sys2Proof

/-- The word has no row in the tables of R78 to R81: `op = 0` with `func` 12, 14 or 15; `op = 1` with `func` 0, 13 or
14; `op = 1`, `func = 15` with a `code` other than 1 to 5, 2046 and 2047 (R84). -/
def unassignedWord (w : Word) : Bool :=
  let op := (w.extractLsb' 28 4).toNat
  let func := (w.extractLsb' 0 4).toNat
  let code := (w.extractLsb' 4 12).toNat
  (op == 0 && [12, 14, 15].contains func)
    || (op == 1 && [0, 13, 14].contains func)
    || (op == 1 && func == 15 && !([1, 2, 3, 4, 5, 2046, 2047].contains code))

/-- A decoded value that the decoder may answer (R84, R86). -/
def Decoded.wellFormed : Decoded → Bool
  | .insn _ => true
  | .unrecognized w => unassignedWord w

/-- The unused fields hold 0, as the assembly form of R87 assembles them (R83 lets the decoder accept any value). -/
def Instr.unusedFieldsZero : Instr → Bool
  | .nop f => f.rt == .gp && f.ot == 0 && f.rs == .gp && f.os == 0
  | .add _ | .sub _ | .cpw _ | .and _ | .bor _ | .nor _ | .xor _ | .sca _ | .neg _ => true
  | .cpr f => f.ot == 0 && f.os == 0
  | .lwr f => f.ot == 0
  | .swr f => f.os == 0
  | .lit _ | .sll _ | .srl _ => true
  | .ari f | .sri f => f.offset == 0
  | .mul f | .div f | .cfhi f | .cflo f | .jmp f | .csi f => f.arg == 0
  | .jrel f => f.reg == .gp && f.arg == 0
  | .addi _ | .andi _ | .bori _ | .nori _ | .xori _ => true
  | .beq _ | .bgez _ | .bgtz _ | .blez _ | .bltz _ | .bne _ => true
  | .jmpa _ | .call _ => true
  | .rtn f => f.addr == 0
  | .exit f => f.reg == .gp
  | .pstr _ | .pint _ | .pch _ | .rch _ => true
  | .stra f | .notr f => f.reg == .gp && f.offset == 0

end Sys2Proof
end

