-- ==== Sys2Proof/Safety.lean ====
section
/-! DEFINITION. The terms the claims are stated in: the opcode table's rows, what one step may leave unchanged, who may
issue a request or raise a fault, the invariant of the machine, and the state without its trace. -/

namespace Sys2Proof

/-- The row of spec/opcode_table.json for an instruction: its `match` and its `mask`. -/
def Instr.tableRow : Instr → Word × Word
  | .nop _ => (0x00000000#32, 0xF000000F#32)
  | .add _ => (0x00000001#32, 0xF000000F#32)
  | .sub _ => (0x00000002#32, 0xF000000F#32)
  | .cpw _ => (0x00000003#32, 0xF000000F#32)
  | .cpr _ => (0x00000004#32, 0xF000000F#32)
  | .and _ => (0x00000005#32, 0xF000000F#32)
  | .bor _ => (0x00000006#32, 0xF000000F#32)
  | .nor _ => (0x00000007#32, 0xF000000F#32)
  | .xor _ => (0x00000008#32, 0xF000000F#32)
  | .lwr _ => (0x00000009#32, 0xF000000F#32)
  | .swr _ => (0x0000000A#32, 0xF000000F#32)
  | .sca _ => (0x0000000B#32, 0xF000000F#32)
  | .neg _ => (0x0000000D#32, 0xF000000F#32)
  | .lit _ => (0x10000001#32, 0xF000000F#32)
  | .ari _ => (0x10000002#32, 0xF000000F#32)
  | .sri _ => (0x10000003#32, 0xF000000F#32)
  | .mul _ => (0x10000004#32, 0xF000000F#32)
  | .div _ => (0x10000005#32, 0xF000000F#32)
  | .cfhi _ => (0x10000006#32, 0xF000000F#32)
  | .cflo _ => (0x10000007#32, 0xF000000F#32)
  | .sll _ => (0x10000008#32, 0xF000000F#32)
  | .srl _ => (0x10000009#32, 0xF000000F#32)
  | .jmp _ => (0x1000000A#32, 0xF000000F#32)
  | .csi _ => (0x1000000B#32, 0xF000000F#32)
  | .jrel _ => (0x1000000C#32, 0xF000000F#32)
  | .addi _ => (0x20000000#32, 0xF0000000#32)
  | .andi _ => (0x30000000#32, 0xF0000000#32)
  | .bori _ => (0x40000000#32, 0xF0000000#32)
  | .nori _ => (0x50000000#32, 0xF0000000#32)
  | .xori _ => (0x60000000#32, 0xF0000000#32)
  | .beq _ => (0x70000000#32, 0xF0000000#32)
  | .bgez _ => (0x80000000#32, 0xF0000000#32)
  | .bgtz _ => (0x90000000#32, 0xF0000000#32)
  | .blez _ => (0xA0000000#32, 0xF0000000#32)
  | .bltz _ => (0xB0000000#32, 0xF0000000#32)
  | .bne _ => (0xC0000000#32, 0xF0000000#32)
  | .jmpa _ => (0xD0000000#32, 0xF0000000#32)
  | .call _ => (0xE0000000#32, 0xF0000000#32)
  | .rtn _ => (0xF0000000#32, 0xF0000000#32)
  | .exit _ => (0x1000001F#32, 0xF000FFFF#32)
  | .pstr _ => (0x1000002F#32, 0xF000FFFF#32)
  | .pint _ => (0x1000003F#32, 0xF000FFFF#32)
  | .pch _ => (0x1000004F#32, 0xF000FFFF#32)
  | .rch _ => (0x1000005F#32, 0xF000FFFF#32)
  | .stra _ => (0x10007FEF#32, 0xF000FFFF#32)
  | .notr _ => (0x10007FFF#32, 0xF000FFFF#32)

/-- The instruction is encoded with outer opcode `op` (R78). -/
def encodedOp (i : Instr) (op : BitVec 4) : Prop := opField (encode i) = op

/-- The instruction is encoded with outer opcode `op` and function code `func` (R79, R80). -/
def encodedFunc (i : Instr) (op func : BitVec 4) : Prop := opField (encode i) = op ∧ funcField (encode i) = func

/-- The instruction is encoded as a system call, `op = 1` and `func = 15`, with syscall code `code` (R81). -/
def encodedCode (i : Instr) (code : BitVec 12) : Prop :=
  opField (encode i) = 1#4 ∧ funcField (encode i) = 15#4 ∧ codeField (encode i) = code

end Sys2Proof

namespace Sys2Proof.Machine

/-- The result of a step that takes a fault: `run <- Faulted(r, a)` with `a` the address the step began with, and nothing
else written (R194). -/
def faulted (s : State) (r : FaultReason) : Result := .next { s with run := .faulted r s.pc }

/-! ## Frames -/

/-- Every register but the named ones is unchanged. -/
def sameRegsExcept (named : List Reg) (s t : State) : Prop := ∀ r, r ∉ named → t.reg r = s.reg r

/-- Every cell of memory but the named ones reads as before. -/
def sameCellsExcept (named : List Nat) (s t : State) : Prop :=
  ∀ a, a ∉ named → Memory.read t.mem a = Memory.read s.mem a

/-- `HI` and `LO` are unchanged. -/
def sameHiLo (s t : State) : Prop := t.hi = s.hi ∧ t.lo = s.lo

/-- The configuration registers and the string layout are unchanged. -/
def sameConfig (s t : State) : Prop := t.cfg = s.cfg ∧ t.strLayout = s.strLayout

/-- Nothing was asked of the host, read from it or shown to it. -/
def samePorts (s t : State) : Prop := t.input = s.input ∧ t.requests = s.requests ∧ t.trace = s.trace

/-- `run` is unchanged, or the step took a fault and `run` is the only field that changed (R194). -/
def runsOnOrFaults (s t : State) : Prop := t.run = s.run ∨ ∃ r, t = { s with run := .faulted r s.pc }

/-! ## Who may do what -/

/-- The instruction that issues a request (R171). -/
def mayRequest (i : Instr) : EnvRequest → Prop
  | .outStr _ => ∃ f, i = .pstr f
  | .outInt _ => ∃ f, i = .pint f
  | .outChar _ => ∃ f, i = .pch f
  | .inChar => ∃ f, i = .rch f
  | .exit _ => ∃ f, i = .exit f

/-- The instructions that access memory, the second row of the table of R192. -/
def accessesMemory : Instr → Bool
  | .nop _ | .cpr _ | .ari _ | .sri _ | .jrel _ | .jmpa _ | .call _ | .rtn _ | .exit _ | .stra _ | .notr _ => false
  | .add _ | .sub _ | .cpw _ | .and _ | .bor _ | .nor _ | .xor _ | .lwr _ | .swr _ | .sca _ | .neg _ => true
  | .lit _ | .mul _ | .div _ | .cfhi _ | .cflo _ | .sll _ | .srl _ | .jmp _ | .csi _ => true
  | .addi _ | .andi _ | .bori _ | .nori _ | .xori _ => true
  | .beq _ | .bne _ | .bgez _ | .bgtz _ | .blez _ | .bltz _ => true
  | .pstr _ | .pint _ | .pch _ | .rch _ => true

/-- The faults an instruction can raise in execution, the table of R192. -/
def mayRaise (i : Instr) : FaultReason → Prop
  | .pcOutOfRange _ => False
  | .unrecognizedInstruction _ => False
  | .divideByZero => ∃ f, i = .div f
  | .addressOutOfRange a => accessesMemory i = true ∧ inMemory a = false

/-- The register an instruction names or implies as its destination, the table of R23. -/
def regTarget : Instr → Option Reg
  | .cpr f | .lwr f => some f.rt
  | .ari f | .sri f => some f.reg
  | .csi _ | .call _ => some .ra
  | .nop _ | .add _ | .sub _ | .cpw _ | .and _ | .bor _ | .nor _ | .xor _ | .swr _ | .sca _ | .neg _ => none
  | .lit _ | .mul _ | .div _ | .cfhi _ | .cflo _ | .sll _ | .srl _ | .jmp _ | .jrel _ => none
  | .addi _ | .andi _ | .bori _ | .nori _ | .xori _ => none
  | .beq _ | .bne _ | .bgez _ | .bgtz _ | .blez _ | .bltz _ => none
  | .jmpa _ | .rtn _ => none
  | .exit _ | .pstr _ | .pint _ | .pch _ | .rch _ | .stra _ | .notr _ => none

/-- The control-transfer instructions of R25. -/
def isTransfer : Instr → Bool
  | .jmp _ | .csi _ | .jrel _ | .beq _ | .bne _ | .bgez _ | .bgtz _ | .blez _ | .bltz _ | .jmpa _ | .call _
  | .rtn _ => true
  | .nop _ | .add _ | .sub _ | .cpw _ | .cpr _ | .and _ | .bor _ | .nor _ | .xor _ | .lwr _ | .swr _ | .sca _
  | .neg _ => false
  | .lit _ | .ari _ | .sri _ | .mul _ | .div _ | .cfhi _ | .cflo _ | .sll _ | .srl _ => false
  | .addi _ | .andi _ | .bori _ | .nori _ | .xori _ => false
  | .exit _ | .pstr _ | .pint _ | .pch _ | .rch _ | .stra _ | .notr _ => false

/-! ## The invariant -/

/-- What an emitted trace event says is true of the machine that emitted it: its address was in the text segment and in the
array, its memory is canonical and held the event's word there, and the word decodes to the event's instruction. -/
def TraceEvent.honest (c : ConfigRegs) (e : TraceEvent) : Prop :=
  inText c e.pc = true ∧ inMemory e.pc = true ∧ Memory.wf e.mem = true
    ∧ Memory.read e.mem e.pc.toNat = e.iw ∧ decode e.iw = .insn e.insn

/-- The invariant every step keeps: memory is canonical, the configuration is one a launch accepts, `Halted` goes with the
`Env.Exit` request last issued and its code of -256 to 255, no `Env.Exit` stands in the log of a core that did not halt, a
fault's recorded address is the `pc`, and every trace event is honest. -/
structure State.Inv (s : State) : Prop where
  memory  : Memory.wf s.mem = true
  config  : configValid s.cfg = true
  halted  : ∀ c, s.run = .halted c →
    s.requests.getLast? = some (.exit c.toInt) ∧ -256 ≤ c.toInt ∧ c.toInt ≤ 255
  noExit  : (∀ c, s.run ≠ .halted c) → ∀ n, EnvRequest.exit n ∉ s.requests
  faultPc : ∀ r a, s.run = .faulted r a → s.pc = a
  trace   : ∀ e ∈ s.trace, e.honest s.cfg

/-! ## The state without its trace -/

/-- The state with the tracing flag and the trace erased. -/
def untraced (s : State) : State := { s with tracing := false, trace := [] }

/-- A result with the tracing flag and the trace erased. -/
def untracedResult : Result → Result
  | .next s => .next (untraced s)
  | .fault r => .fault r
  | .refused r => .refused r

/-! ## Strings in memory -/

/-- Character `n` of the string packed four to a word from address `a`, lowest byte first (R174). -/
def packedChar (m : Memory) (a n : Nat) : Byte := (Memory.read m (a + n / 4)).extractLsb' (8 * (n % 4)) 8

end Sys2Proof.Machine
end

