-- ==== Sys2Proof/Certificates/Slice0/Obligations.lean ====
section
/-! DEFINITION. The statements for the provers, from the numbered rules of spec/. In every statement `s` is the state a step
begins in, so `s.pc` is the instruction's own address and `s.pc + 1` is `npc` (R105). -/

open Sys2Proof Sys2Proof.Machine

/-! ## Encoding -/

/-- R85: decoding an encoded instruction gives it back, with every field at every value. -/
def Obligations.DecodeEncodeRoundTrip : Prop :=
  ∀ i : Instr, decode (encode i) = .insn i

/-- R83: the decoder accepts every value of every field, encoding a decoded word gives the word back, unused fields included,
and an instruction's unused fields have no effect on its execution. -/
def Obligations.UnusedFieldsKeptAndIgnored : Prop :=
  (∀ i, ∃ w, decode w = .insn i) ∧
  (∀ w i, decode w = .insn i → encode i = w) ∧
  (∀ (f g : CompFields) (s : State),
    exec (.nop f) s = exec (.nop g) s ∧
    (f.rt = g.rt → f.rs = g.rs → exec (.cpr f) s = exec (.cpr g) s) ∧
    (f.rt = g.rt → f.rs = g.rs → f.os = g.os → exec (.lwr f) s = exec (.lwr g) s) ∧
    (f.rt = g.rt → f.ot = g.ot → f.rs = g.rs → exec (.swr f) s = exec (.swr g) s)) ∧
  (∀ (f g : OthcFields) (s : State),
    (f.reg = g.reg → f.arg = g.arg → exec (.ari f) s = exec (.ari g) s ∧ exec (.sri f) s = exec (.sri g) s) ∧
    (f.reg = g.reg → f.offset = g.offset →
      exec (.mul f) s = exec (.mul g) s ∧ exec (.div f) s = exec (.div g) s ∧
      exec (.cfhi f) s = exec (.cfhi g) s ∧ exec (.cflo f) s = exec (.cflo g) s ∧
      exec (.jmp f) s = exec (.jmp g) s ∧ exec (.csi f) s = exec (.csi g) s) ∧
    (f.offset = g.offset → exec (.jrel f) s = exec (.jrel g) s)) ∧
  (∀ (f g : JumpFields) (s : State), exec (.rtn f) s = exec (.rtn g) s) ∧
  (∀ (f g : SysFields) (s : State),
    (f.offset = g.offset → exec (.exit f) s = exec (.exit g) s) ∧
    exec (.stra f) s = exec (.stra g) s ∧ exec (.notr f) s = exec (.notr g) s)

/-- R84: decoding is total, and the words with no row are exactly the unrecognized ones; fetching one is a fault that
reports the word and the address, with nothing else changed. -/
def Obligations.UnrecognizedWordsFault : Prop :=
  (∀ w, (decode w = .unrecognized w ↔ unassignedWord w = true) ∧ (∀ v, decode w = .unrecognized v → v = w)) ∧
  (∀ s : State, s.run = .running → inText s.cfg s.pc = true → inMemory s.pc = true →
    unassignedWord (Memory.read s.mem s.pc.toNat) = true →
    step s = faulted s (.unrecognizedInstruction (Memory.read s.mem s.pc.toNat)))

/-- The rows of spec/opcode_table.json: a decoded word agrees with its instruction's row in every bit the row fixes, and a
word that agrees with a row decodes to the instruction of that row, so no word agrees with two rows. -/
def Obligations.DecodedWordMatchesItsRow : Prop :=
  (∀ w i, decode w = .insn i → w &&& i.tableRow.2 = i.tableRow.1) ∧
  (∀ (w : Word) (j : Instr), w &&& j.tableRow.2 = j.tableRow.1 →
    ∃ i, decode w = .insn i ∧ i.tableRow = j.tableRow)

/-- The words of spec/95_test_vectors.md S1, each with exactly the fields shown there. -/
def Obligations.SpecWordsDecode : Prop :=
  decode 0x02002011#32 = .insn (.add ⟨.sp, 0, .sp, 1⟩) ∧
  decode 0x03FF2003#32 = .insn (.cpw ⟨.sp, 0x1FF, .sp, 0⟩) ∧
  decode 0x02005FDB#32 = .insn (.sca ⟨.sp, 0, .fp, 0x1FD⟩) ∧
  decode 0x1200FFB1#32 = .insn (.lit ⟨.sp, 0, 0xFFB⟩) ∧
  decode 0x12000048#32 = .insn (.sll ⟨.sp, 0, 4⟩) ∧
  decode 0x11FE000C#32 = .insn (.jrel ⟨.gp, 0x1FE, 0⟩) ∧
  decode 0x2200FFFF#32 = .insn (.addi ⟨.sp, 0, 0xFFFF⟩) ∧
  decode 0xC201FFFC#32 = .insn (.bne ⟨.sp, 1, 0xFFFC⟩) ∧
  decode 0xE0000008#32 = .insn (.call ⟨8⟩) ∧
  decode 0x1040002F#32 = .insn (.pstr ⟨.gp, 64⟩) ∧
  decode 0x10007FFF#32 = .insn (.notr ⟨.gp, 0⟩) ∧
  decode 0x0FFFFFF0#32 = .insn (.nop ⟨.ra, 0x1FF, .ra, 0x1FF⟩) ∧
  decode 0xFFFFFFFF#32 = .insn (.rtn ⟨0x0FFFFFFF⟩)

/-! ## Operands, registers and memory -/

/-- R107: the effective address is the register plus the sign-extended offset, reduced mod 2^32, read unsigned; an access
through it is checked against 32768. -/
def Obligations.EffectiveAddressLaw : Prop :=
  ∀ (s : State) (r : Reg) (o : BitVec 9),
    ((ea s r o).toNat : Int) = (((s.reg r).toNat : Int) + o.toInt) % 2 ^ 32 ∧ -256 ≤ o.toInt ∧ o.toInt ≤ 255 ∧
    (inMemory (ea s r o) = true ↔ (((s.reg r).toNat : Int) + o.toInt) % 2 ^ 32 < 32768)

/-- R82: how each field becomes an operand, with its range. -/
def Obligations.OperandFieldReadings : Prop :=
  (∀ o : BitVec 9, (sext9 o).toInt = o.toInt ∧ -256 ≤ (sext9 o).toInt ∧ (sext9 o).toInt ≤ 255) ∧
  (∀ a : BitVec 12, (sext12 a).toInt = a.toInt ∧ -2048 ≤ (sext12 a).toInt ∧ (sext12 a).toInt ≤ 2047) ∧
  (∀ a : BitVec 12, zext12 a = a.toNat ∧ zext12 a ≤ 4095) ∧
  (∀ i : BitVec 16, (sext16 i).toInt = i.toInt ∧ -32768 ≤ (sext16 i).toInt ∧ (sext16 i).toInt ≤ 32767) ∧
  (∀ i : BitVec 16, (zext16 i).toNat = i.toNat ∧ (zext16 i).extractLsb' 16 16 = 0#16) ∧
  (∀ (s : State) (a : BitVec 28), (jumpAddress s a).extractLsb' 28 4 = (s.pc + 1).extractLsb' 28 4 ∧
    (jumpAddress s a).extractLsb' 0 28 = a)

/-- R22: no register is hard-wired: every register reads as last written, register 0 among them, and a write changes no
other register; register 0 holds 0 after reset. -/
def Obligations.EveryRegisterIsWritable : Prop :=
  (∀ (s : State) (r q : Reg) (v : Word), (s.setReg r v).reg q = if q = r then v else s.reg q) ∧
  (∀ (c : ConfigInputs) (m : Memory) (input : List CharAnswer), (State.atReset c m input).reg .gp = 0)

/-- Memory as a list of cells (log entry 1) is the array of R28: a read returns the last value written to that cell, a write changes no
other cell and keeps the canonical form, and two canonical memories that read alike are equal. -/
def Obligations.MemoryReadsLastWrite : Prop :=
  (∀ (m : Memory) (a b : Nat) (v : Word), Memory.wf m = true → a < memorySize →
    Memory.wf (Memory.write m a v) = true ∧
    Memory.read (Memory.write m a v) b = if b = a then v else Memory.read m b) ∧
  (∀ m m' : Memory, Memory.wf m = true → Memory.wf m' = true →
    (∀ a, a < memorySize → Memory.read m a = Memory.read m' a) → m = m')

/-! ## The step -/

/-- A step of the running core whose `pc` passes the guard and lies in the array, and whose word decodes, is the decoded
instruction executed in that state, after the trace event if tracing is on (R102 to R106). `exec` itself does the
increment (log entry 9). -/
def Obligations.StepRunsDecodedInstruction : Prop :=
  ∀ (s : State) (i : Instr), s.run = .running → inText s.cfg s.pc = true → inMemory s.pc = true →
    decode (Memory.read s.mem s.pc.toNat) = .insn i →
    (s.tracing = false → step s = exec i s) ∧
    (s.tracing = true →
      step s = exec i { s with trace := s.trace ++ [traceEvent s (Memory.read s.mem s.pc.toNat) i] })

/-- R101: a `pc` outside `text_start` to `text_start + text_length - 1`, compared unsigned without wrap, is a fault of the
step that uses it; it is the only check on `pc`, so a step that begins inside takes no such fault, wherever it leaves
`pc`. -/
def Obligations.GuardFaultsOutsideText : Prop :=
  ∀ s : State, s.run = .running →
    let inside := s.cfg.textStart.toNat ≤ s.pc.toNat ∧ s.pc.toNat < s.cfg.textStart.toNat + s.cfg.textLength.toNat
    (¬ inside → step s = faulted s (.pcOutOfRange s.pc)) ∧
    (inside → ∀ (t : State) (a b : Word), step s = .next t → t.run ≠ .faulted (.pcOutOfRange a) b)

/-- R102: a fetch outside the array is an address fault. -/
def Obligations.FetchFaultsOutsideArray : Prop :=
  ∀ s : State, s.run = .running → inText s.cfg s.pc = true → 32768 ≤ s.pc.toNat →
    step s = faulted s (.addressOutOfRange s.pc)

/-- R110: in a terminal state the core has no step. The model says so with its own fault `coreStopped` (log entry 5). -/
def Obligations.StoppedCoreHasNoStep : Prop :=
  ∀ s : State, s.run ≠ .running → step s = .fault .coreStopped

/-- R104: one event per step while tracing is on, carrying the state before execution and the non-zero words of the two
windows, and none when tracing is off at the start of the step or the step faults before decoding an instruction. That an
instruction which then faults has emitted its event, and that the windows are cut to the array, is the model's
reading (log entries 11 and 12). -/
def Obligations.TraceEventPerStep : Prop :=
  ∀ s t : State, step s = .next t →
    (s.tracing = false → t.trace = s.trace) ∧
    ((∀ i, fetchDecode s ≠ .ok (Memory.read s.mem s.pc.toNat, i)) → t.trace = s.trace) ∧
    (∀ i, s.tracing = true → fetchDecode s = .ok (Memory.read s.mem s.pc.toNat, i) →
      ∃ e, t.trace = s.trace ++ [e] ∧ e.pc = s.pc ∧ e.iw = Memory.read s.mem s.pc.toNat ∧ e.insn = i ∧
        e.regs = s.regs ∧ e.hi = s.hi ∧ e.lo = s.lo ∧ e.mem = s.mem ∧
        (Memory.wf s.mem = true → ∀ a v,
          ((a, v) ∈ e.globalData ↔ v ≠ 0 ∧ Memory.read s.mem a = v ∧
            s.cfg.dataStart.toNat ≤ a ∧ a < s.cfg.dataStart.toNat + s.cfg.dataLength.toNat) ∧
          ((a, v) ∈ e.stackWindow ↔ v ≠ 0 ∧ Memory.read s.mem a = v ∧
            (s.reg .sp).toNat ≤ a ∧ a ≤ s.cfg.stackBottom.toNat)))

/-- R171: a step issues at most one request, of the kind its instruction issues, and only RCH takes an answer. -/
def Obligations.AtMostOneRequestPerStep : Prop :=
  ∀ s t : State, step s = .next t →
    (t.requests = s.requests ∨
      ∃ q iw i, fetchDecode s = .ok (iw, i) ∧ mayRequest i q ∧ t.requests = s.requests ++ [q]) ∧
    (t.input = s.input ∨
      ∃ iw f, fetchDecode s = .ok (iw, .rch f) ∧ t.input = s.input.tail ∧ t.requests = s.requests ++ [.inChar])

/-! ## Computational instructions -/

/-- R116: NOP has no effect but `pc = npc`. -/
def Obligations.NopOnlyAdvances : Prop :=
  ∀ (f : CompFields) (s : State),
    encodedFunc (.nop f) 0 0 ∧ exec (.nop f) s = .next { s with pc := s.pc + 1 }

/-- R117, R118, R121 to R124: ADD, SUB, AND, BOR, NOR and XOR combine `top` with the source cell into the target cell; the
addresses are checked in the order `x[SP]`, source, target. -/
def Obligations.TopOperandInstructions : Prop :=
  ∀ (f : CompFields) (s : State),
    let sp := s.reg .sp
    let src := ea s f.rs f.os
    let dst := ea s f.rt f.ot
    let v1 := Memory.read s.mem sp.toNat
    let v2 := Memory.read s.mem src.toNat
    let stored := fun v : Word => (.next { s with mem := Memory.write s.mem dst.toNat v, pc := s.pc + 1 } : Result)
    let allFault := fun a : Word => ∀ i ∈ ([.add f, .sub f, .and f, .bor f, .nor f, .xor f] : List Instr),
      exec i s = faulted s (.addressOutOfRange a)
    (encodedFunc (.add f) 0 1 ∧ encodedFunc (.sub f) 0 2 ∧ encodedFunc (.and f) 0 5 ∧ encodedFunc (.bor f) 0 6 ∧
      encodedFunc (.nor f) 0 7 ∧ encodedFunc (.xor f) 0 8) ∧
    (inMemory sp = true → inMemory src = true → inMemory dst = true →
      exec (.add f) s = stored (v1 + v2) ∧ exec (.sub f) s = stored (v1 - v2) ∧
      exec (.and f) s = stored (v1 &&& v2) ∧ exec (.bor f) s = stored (v1 ||| v2) ∧
      exec (.nor f) s = stored (~~~(v1 ||| v2)) ∧ exec (.xor f) s = stored (v1 ^^^ v2)) ∧
    (inMemory sp = false → allFault sp) ∧
    (inMemory sp = true → inMemory src = false → allFault src) ∧
    (inMemory sp = true → inMemory src = true → inMemory dst = false → allFault dst)

/-- R119, R128: CPW copies and NEG negates the source cell into the target cell; the source address is checked first. -/
def Obligations.CopyAndNegateInstructions : Prop :=
  ∀ (f : CompFields) (s : State),
    let src := ea s f.rs f.os
    let dst := ea s f.rt f.ot
    let v := Memory.read s.mem src.toNat
    let stored := fun v : Word => (.next { s with mem := Memory.write s.mem dst.toNat v, pc := s.pc + 1 } : Result)
    let allFault := fun a : Word => ∀ i ∈ ([.cpw f, .neg f] : List Instr), exec i s = faulted s (.addressOutOfRange a)
    (encodedFunc (.cpw f) 0 3 ∧ encodedFunc (.neg f) 0 13) ∧
    (inMemory src = true → inMemory dst = true →
      exec (.cpw f) s = stored v ∧ exec (.neg f) s = stored (0 - v)) ∧
    (inMemory src = false → allFault src) ∧
    (inMemory src = true → inMemory dst = false → allFault dst)

/-- R120, R132, R133: CPR copies a register, ARI adds and SRI subtracts a sign-extended literal; any register may be the
target, no memory is accessed and no fault can happen. -/
def Obligations.RegisterInstructions : Prop :=
  (∀ (f : CompFields) (s : State), encodedFunc (.cpr f) 0 4 ∧
    exec (.cpr f) s = .next { s with regs := s.regs.set f.rt (s.reg f.rs), pc := s.pc + 1 }) ∧
  (∀ (f : OthcFields) (s : State),
    encodedFunc (.ari f) 1 2 ∧
    exec (.ari f) s = .next { s with regs := s.regs.set f.reg (s.reg f.reg + sext12 f.arg), pc := s.pc + 1 } ∧
    encodedFunc (.sri f) 1 3 ∧
    exec (.sri f) s = .next { s with regs := s.regs.set f.reg (s.reg f.reg - sext12 f.arg), pc := s.pc + 1 })

/-- R125: LWR loads the source cell into the target register; a faulting load leaves the register alone. -/
def Obligations.LoadWordRegister : Prop :=
  ∀ (f : CompFields) (s : State),
    let src := ea s f.rs f.os
    encodedFunc (.lwr f) 0 9 ∧
    (inMemory src = true → exec (.lwr f) s =
      .next { s with regs := s.regs.set f.rt (Memory.read s.mem src.toNat), pc := s.pc + 1 }) ∧
    (inMemory src = false → exec (.lwr f) s = faulted s (.addressOutOfRange src))

/-- R126, R127: SWR stores the source register and SCA the source address itself, unread and unchecked. -/
def Obligations.StoreRegisterAndAddress : Prop :=
  ∀ (f : CompFields) (s : State),
    let dst := ea s f.rt f.ot
    let stored := fun v : Word => (.next { s with mem := Memory.write s.mem dst.toNat v, pc := s.pc + 1 } : Result)
    encodedFunc (.swr f) 0 10 ∧ encodedFunc (.sca f) 0 11 ∧
    (inMemory dst = true → exec (.swr f) s = stored (s.reg f.rs) ∧ exec (.sca f) s = stored (ea s f.rs f.os)) ∧
    (inMemory dst = false →
      ∀ i ∈ ([.swr f, .sca f] : List Instr), exec i s = faulted s (.addressOutOfRange dst))

/-- R129: ADD, SUB and NEG give the exact signed result whenever it lies in -2^31 to 2^31 - 1, and ADD and SUB the exact
unsigned result whenever it lies in 0 to 2^32 - 1; outside, the low 32 bits. SCA's sum wraps the same way. -/
def Obligations.ExactSumsInRange : Prop :=
  ∀ (f : CompFields) (s t : State), Memory.wf s.mem = true → inMemory (s.reg .sp) = true →
    inMemory (ea s f.rs f.os) = true → inMemory (ea s f.rt f.ot) = true →
    let v1 := Memory.read s.mem (s.reg .sp).toNat
    let v2 := Memory.read s.mem (ea s f.rs f.os).toNat
    let result := Memory.read t.mem (ea s f.rt f.ot).toNat
    (exec (.add f) s = .next t →
      (-2 ^ 31 ≤ v1.toInt + v2.toInt → v1.toInt + v2.toInt < 2 ^ 31 → result.toInt = v1.toInt + v2.toInt) ∧
      (result.toNat = (v1.toNat + v2.toNat) % 2 ^ 32)) ∧
    (exec (.sub f) s = .next t →
      (-2 ^ 31 ≤ v1.toInt - v2.toInt → v1.toInt - v2.toInt < 2 ^ 31 → result.toInt = v1.toInt - v2.toInt) ∧
      ((result.toNat : Int) = ((v1.toNat : Int) - v2.toNat) % 2 ^ 32)) ∧
    (exec (.neg f) s = .next t →
      (v2.toInt ≠ -2 ^ 31 → result.toInt = - v2.toInt) ∧ (v2.toInt = -2 ^ 31 → result = v2)) ∧
    (exec (.sca f) s = .next t →
      (result.toNat : Int) = (((s.reg f.rs).toNat : Int) + f.os.toInt) % 2 ^ 32)

/-! ## Other-computational instructions -/

/-- R131, R136, R137: LIT stores the sign-extended literal, CFHI `HI` and CFLO `LO` in the addressed cell. -/
def Obligations.LiteralAndHiLoStores : Prop :=
  ∀ (f : OthcFields) (s : State),
    let dst := ea s f.reg f.offset
    let stored := fun v : Word => (.next { s with mem := Memory.write s.mem dst.toNat v, pc := s.pc + 1 } : Result)
    encodedFunc (.lit f) 1 1 ∧ encodedFunc (.cfhi f) 1 6 ∧ encodedFunc (.cflo f) 1 7 ∧
    (inMemory dst = true →
      exec (.lit f) s = stored (sext12 f.arg) ∧ exec (.cfhi f) s = stored s.hi ∧ exec (.cflo f) s = stored s.lo) ∧
    (inMemory dst = false →
      ∀ i ∈ ([.lit f, .cfhi f, .cflo f] : List Instr), exec i s = faulted s (.addressOutOfRange dst))

/-- R134: MUL puts the exact unsigned product of `top` and the addressed cell in `HI:LO`, replacing both, and writes nothing
else but `pc`. -/
def Obligations.MultiplyWideResult : Prop :=
  ∀ (f : OthcFields) (s : State),
    let sp := s.reg .sp
    let cell := ea s f.reg f.offset
    let v1 := Memory.read s.mem sp.toNat
    let v2 := Memory.read s.mem cell.toNat
    encodedFunc (.mul f) 1 4 ∧
    (inMemory sp = true → inMemory cell = true →
      ∃ hi lo : Word, hi.toNat * 2 ^ 32 + lo.toNat = v1.toNat * v2.toNat ∧
        exec (.mul f) s = .next { s with hi := hi, lo := lo, pc := s.pc + 1 }) ∧
    (inMemory sp = false → exec (.mul f) s = faulted s (.addressOutOfRange sp)) ∧
    (inMemory sp = true → inMemory cell = false → exec (.mul f) s = faulted s (.addressOutOfRange cell))

/-- R135: DIV puts the unsigned remainder of `top` by the addressed cell in `HI` and the quotient in `LO`; the operand
addresses are checked before the divisor, and a zero divisor is a fault that leaves `HI` and `LO` alone. -/
def Obligations.DivideRemainderQuotient : Prop :=
  ∀ (f : OthcFields) (s : State),
    let sp := s.reg .sp
    let cell := ea s f.reg f.offset
    let v1 := Memory.read s.mem sp.toNat
    let v2 := Memory.read s.mem cell.toNat
    encodedFunc (.div f) 1 5 ∧
    (inMemory sp = true → inMemory cell = true → v2 ≠ 0 →
      ∃ hi lo : Word, hi.toNat = v1.toNat % v2.toNat ∧ lo.toNat = v1.toNat / v2.toNat ∧
        v1.toNat = v2.toNat * lo.toNat + hi.toNat ∧ hi.toNat < v2.toNat ∧
        exec (.div f) s = .next { s with hi := hi, lo := lo, pc := s.pc + 1 }) ∧
    (inMemory sp = false → exec (.div f) s = faulted s (.addressOutOfRange sp)) ∧
    (inMemory sp = true → inMemory cell = false → exec (.div f) s = faulted s (.addressOutOfRange cell)) ∧
    (inMemory sp = true → inMemory cell = true → v2 = 0 → exec (.div f) s = faulted s .divideByZero)

/-- R138 to R140: SLL and SRL store `top` shifted by the unsigned argument, 0 to 4095, in the addressed cell: the exact
product or quotient by the power of two, narrowed to 32 bits, so 0 for an amount of 32 or more. -/
def Obligations.ShiftInstructions : Prop :=
  ∀ (f : OthcFields) (s : State),
    let sp := s.reg .sp
    let dst := ea s f.reg f.offset
    let v := Memory.read s.mem sp.toNat
    let stored := fun v : Word => (.next { s with mem := Memory.write s.mem dst.toNat v, pc := s.pc + 1 } : Result)
    let allFault := fun a : Word => ∀ i ∈ ([.sll f, .srl f] : List Instr), exec i s = faulted s (.addressOutOfRange a)
    encodedFunc (.sll f) 1 8 ∧ encodedFunc (.srl f) 1 9 ∧
    (inMemory sp = true → inMemory dst = true →
      (∃ w : Word, w.toNat = v.toNat * 2 ^ f.arg.toNat % 2 ^ 32 ∧ (32 ≤ f.arg.toNat → w = 0) ∧
        exec (.sll f) s = stored w) ∧
      (∃ w : Word, w.toNat = v.toNat / 2 ^ f.arg.toNat ∧ (32 ≤ f.arg.toNat → w = 0) ∧
        exec (.srl f) s = stored w)) ∧
    (inMemory sp = false → allFault sp) ∧
    (inMemory sp = true → inMemory dst = false → allFault dst)

/-- R141, R142: JMP and CSI take the new `pc` from the addressed cell, unchecked; CSI first writes the link, and the address
uses the old registers, `RA` among them. -/
def Obligations.IndirectJumpAndCall : Prop :=
  ∀ (f : OthcFields) (s : State),
    let cell := ea s f.reg f.offset
    encodedFunc (.jmp f) 1 10 ∧ encodedFunc (.csi f) 1 11 ∧
    (inMemory cell = true →
      exec (.jmp f) s = .next { s with pc := Memory.read s.mem cell.toNat } ∧
      exec (.csi f) s =
        .next { s with regs := s.regs.set .ra (s.pc + 1), pc := Memory.read s.mem cell.toNat }) ∧
    (inMemory cell = false →
      ∀ i ∈ ([.jmp f, .csi f] : List Instr), exec i s = faulted s (.addressOutOfRange cell))

/-- R143: JREL jumps relative to the next instruction, by the 9-bit signed offset. -/
def Obligations.RelativeJump : Prop :=
  ∀ (f : OthcFields) (s : State),
    encodedFunc (.jrel f) 1 12 ∧ exec (.jrel f) s = .next { s with pc := s.pc + 1 + sext9 f.offset }

/-! ## Immediate instructions -/

/-- R146 to R150: ADDI, ANDI, BORI, NORI and XORI combine the addressed cell with the immediate, sign-extended for ADDI and
zero-extended for the others, into the same cell. -/
def Obligations.ImmediateUpdates : Prop :=
  ∀ (f : ImmFields) (s : State),
    let cell := ea s f.reg f.offset
    let v := Memory.read s.mem cell.toNat
    let stored := fun v : Word => (.next { s with mem := Memory.write s.mem cell.toNat v, pc := s.pc + 1 } : Result)
    (encodedOp (.addi f) 2 ∧ encodedOp (.andi f) 3 ∧ encodedOp (.bori f) 4 ∧ encodedOp (.nori f) 5 ∧
      encodedOp (.xori f) 6) ∧
    (inMemory cell = true →
      exec (.addi f) s = stored (v + sext16 f.immed) ∧ exec (.andi f) s = stored (v &&& zext16 f.immed) ∧
      exec (.bori f) s = stored (v ||| zext16 f.immed) ∧ exec (.nori f) s = stored (~~~(v ||| zext16 f.immed)) ∧
      exec (.xori f) s = stored (v ^^^ zext16 f.immed)) ∧
    (inMemory cell = false →
      ∀ i ∈ ([.addi f, .andi f, .bori f, .nori f, .xori f] : List Instr),
        exec i s = faulted s (.addressOutOfRange cell))

/-- R151, R152, R157: BEQ and BNE compare `top` with the addressed cell and branch relative to the next instruction; the
operand addresses are checked whether or not the branch is taken. -/
def Obligations.EqualityBranches : Prop :=
  ∀ (f : ImmFields) (s : State),
    let sp := s.reg .sp
    let cell := ea s f.reg f.offset
    let v1 := Memory.read s.mem sp.toNat
    let v2 := Memory.read s.mem cell.toNat
    let target := s.pc + 1 + sext16 f.immed
    let allFault := fun a : Word => ∀ i ∈ ([.beq f, .bne f] : List Instr), exec i s = faulted s (.addressOutOfRange a)
    encodedOp (.beq f) 7 ∧ encodedOp (.bne f) 12 ∧
    (inMemory sp = true → inMemory cell = true →
      exec (.beq f) s = .next { s with pc := if v1 = v2 then target else s.pc + 1 } ∧
      exec (.bne f) s = .next { s with pc := if v1 = v2 then s.pc + 1 else target }) ∧
    (inMemory sp = false → allFault sp) ∧
    (inMemory sp = true → inMemory cell = false → allFault cell)

/-- R153 to R156: BGEZ, BGTZ, BLEZ and BLTZ compare the signed reading of the addressed cell with zero; in terms of bits,
bit 31 and the word being zero decide. -/
def Obligations.ZeroBranches : Prop :=
  (∀ (f : ImmFields) (s : State),
    let cell := ea s f.reg f.offset
    let v := Memory.read s.mem cell.toNat
    let target := s.pc + 1 + sext16 f.immed
    (encodedOp (.bgez f) 8 ∧ encodedOp (.bgtz f) 9 ∧ encodedOp (.blez f) 10 ∧ encodedOp (.bltz f) 11) ∧
    (inMemory cell = true →
      exec (.bgez f) s = .next { s with pc := if v.toInt ≥ 0 then target else s.pc + 1 } ∧
      exec (.bgtz f) s = .next { s with pc := if v.toInt > 0 then target else s.pc + 1 } ∧
      exec (.blez f) s = .next { s with pc := if v.toInt ≤ 0 then target else s.pc + 1 } ∧
      exec (.bltz f) s = .next { s with pc := if v.toInt < 0 then target else s.pc + 1 }) ∧
    (inMemory cell = false →
      ∀ i ∈ ([.bgez f, .bgtz f, .blez f, .bltz f] : List Instr), exec i s = faulted s (.addressOutOfRange cell))) ∧
  (∀ v : Word,
    (v.toInt ≥ 0 ↔ v.getLsbD 31 = false) ∧ (v.toInt > 0 ↔ v.getLsbD 31 = false ∧ v ≠ 0) ∧
    (v.toInt ≤ 0 ↔ v.getLsbD 31 = true ∨ v = 0) ∧ (v.toInt < 0 ↔ v.getLsbD 31 = true))

/-! ## Jumps and calls -/

/-- R160 to R162: JMPA, CALL and RTN; CALL writes the link `npc`, RTN changes no register, and no target is checked. -/
def Obligations.JumpCallReturn : Prop :=
  ∀ (f : JumpFields) (s : State),
    let target : Word := (s.pc + 1).extractLsb' 28 4 ++ f.addr
    encodedOp (.jmpa f) 13 ∧ exec (.jmpa f) s = .next { s with pc := target } ∧
    encodedOp (.call f) 14 ∧ exec (.call f) s = .next { s with regs := s.regs.set .ra (s.pc + 1), pc := target } ∧
    encodedOp (.rtn f) 15 ∧ exec (.rtn f) s = .next { s with pc := s.reg .ra }

/-- R163: in every state with a valid configuration whose `pc` passes the guard, the upper four bits of `npc` are 0 and the
target of JMPA and CALL is the zero-extended address field. -/
def Obligations.JumpUpperBitsAreZero : Prop :=
  ∀ (f : JumpFields) (s : State), configValid s.cfg = true → inText s.cfg s.pc = true →
    (s.pc + 1).extractLsb' 28 4 = 0#4 ∧
    exec (.jmpa f) s = .next { s with pc := f.addr.zeroExtend 32 } ∧
    exec (.call f) s = .next { s with regs := s.regs.set .ra (s.pc + 1), pc := f.addr.zeroExtend 32 }

/-! ## System calls -/

/-- R172: EXIT halts with the sign-extended offset, -256 to 255, requests `Env.Exit` of it, and leaves `pc` at `npc`. -/
def Obligations.ExitHalts : Prop :=
  ∀ (f : SysFields) (s : State),
    encodedCode (.exit f) 1 ∧ -256 ≤ f.offset.toInt ∧ f.offset.toInt ≤ 255 ∧
    (sext9 f.offset).toInt = f.offset.toInt ∧
    exec (.exit f) s = .next
      { s with
        run := .halted (sext9 f.offset)
        requests := s.requests ++ [.exit f.offset.toInt]
        pc := s.pc + 1 }

/-- R173, R174 with `STR_LAYOUT = packed_le`: PSTR outputs the characters before the first zero byte, four to a word, lowest
byte first; with no zero byte before the end of the array it is a fault and outputs nothing. -/
def Obligations.PrintPackedString : Prop :=
  ∀ (f : SysFields) (s : State), s.strLayout = .packedLe →
    let start := ea s f.reg f.offset
    let a := start.toNat
    encodedCode (.pstr f) 2 ∧
    (∀ bytes : List Byte,
      (∀ (n : Nat) (h : n < bytes.length), bytes[n] ≠ 0 ∧ packedChar s.mem a n = bytes[n]) →
      packedChar s.mem a bytes.length = 0 → a + bytes.length / 4 < memorySize →
      exec (.pstr f) s = .next { s with requests := s.requests ++ [.outStr bytes], pc := s.pc + 1 }) ∧
    ((∀ n, a + n / 4 < memorySize → packedChar s.mem a n ≠ 0) →
      exec (.pstr f) s = faulted s (.addressOutOfRange (if a < memorySize then 32768#32 else start)))

/-- R173, R174 with `STR_LAYOUT = word_per_char`: PSTR outputs the low byte of each word before the first zero word; with no
zero word before the end of the array it is a fault and outputs nothing. That a non-zero word with a zero low byte gives
the byte 0 is the model's reading (log entry 10). -/
def Obligations.PrintWordPerCharString : Prop :=
  ∀ (f : SysFields) (s : State), s.strLayout = .wordPerChar →
    let start := ea s f.reg f.offset
    let a := start.toNat
    (∀ bytes : List Byte,
      (∀ (n : Nat) (h : n < bytes.length),
        Memory.read s.mem (a + n) ≠ 0 ∧ (Memory.read s.mem (a + n)).extractLsb' 0 8 = bytes[n]) →
      Memory.read s.mem (a + bytes.length) = 0 → a + bytes.length < memorySize →
      exec (.pstr f) s = .next { s with requests := s.requests ++ [.outStr bytes], pc := s.pc + 1 }) ∧
    ((∀ n, a + n < memorySize → Memory.read s.mem (a + n) ≠ 0) →
      exec (.pstr f) s = faulted s (.addressOutOfRange (if a < memorySize then 32768#32 else start)))

/-- R175, R176: PINT outputs the signed reading of the addressed cell and PCH its low 8 bits. -/
def Obligations.PrintIntegerAndCharacter : Prop :=
  ∀ (f : SysFields) (s : State),
    let cell := ea s f.reg f.offset
    let v := Memory.read s.mem cell.toNat
    encodedCode (.pint f) 3 ∧ encodedCode (.pch f) 4 ∧
    (inMemory cell = true →
      exec (.pint f) s = .next { s with requests := s.requests ++ [.outInt v.toInt], pc := s.pc + 1 } ∧
      exec (.pch f) s =
        .next { s with requests := s.requests ++ [.outChar (v.extractLsb' 0 8)], pc := s.pc + 1 }) ∧
    (inMemory cell = false →
      ∀ i ∈ ([.pint f, .pch f] : List Instr), exec i s = faulted s (.addressOutOfRange cell))

/-- R177: RCH stores the next byte zero-extended, or 0xFFFFFFFF at end of input, in the addressed cell; the address is
checked before the request, so a faulting RCH asks for nothing and consumes nothing. -/
def Obligations.ReadCharacter : Prop :=
  ∀ (f : SysFields) (s : State) (b : Byte) (rest : List CharAnswer),
    let cell := ea s f.reg f.offset
    let stored := fun c : Word => (.next
      { s with
        mem := Memory.write s.mem cell.toNat c
        input := rest
        requests := s.requests ++ [.inChar]
        pc := s.pc + 1 } : Result)
    encodedCode (.rch f) 5 ∧
    (inMemory cell = true → s.input = .byte b :: rest → exec (.rch f) s = stored (b.zeroExtend 32)) ∧
    (inMemory cell = true → s.input = .endOfInput :: rest → exec (.rch f) s = stored 0xFFFFFFFF#32) ∧
    (inMemory cell = false → exec (.rch f) s = faulted s (.addressOutOfRange cell))

/-- The model's own choices on the input (log entry 6): with no answer left RCH reads the end of input, and if the host
never answers the step does not complete. -/
def Obligations.ReadCharacterWithoutAnswer : Prop :=
  ∀ (f : SysFields) (s : State),
    let cell := ea s f.reg f.offset
    inMemory cell = true →
    (s.input = [] → exec (.rch f) s = .next
      { s with
        mem := Memory.write s.mem cell.toNat 0xFFFFFFFF#32
        requests := s.requests ++ [.inChar]
        pc := s.pc + 1 }) ∧
    (∀ rest, s.input = .never :: rest → exec (.rch f) s = .fault .inputNeverAnswered)

/-- R178, R179: STRA sets the tracing flag and NOTR clears it, whatever it was. -/
def Obligations.TracingSwitches : Prop :=
  ∀ (f : SysFields) (s : State),
    encodedCode (.stra f) 2046 ∧ exec (.stra f) s = .next { s with tracing := true, pc := s.pc + 1 } ∧
    encodedCode (.notr f) 2047 ∧ exec (.notr f) s = .next { s with tracing := false, pc := s.pc + 1 }

/-! ## Frames -/

/-- The storing computational instructions change no register, no cell but the target cell, and nothing else but `pc`. -/
def Obligations.ComputationalStoreFrame : Prop :=
  ∀ (f : CompFields) (s t : State),
    ∀ i ∈ ([.add f, .sub f, .cpw f, .and f, .bor f, .nor f, .xor f, .swr f, .sca f, .neg f] : List Instr),
    exec i s = .next t →
    sameRegsExcept [] s t ∧ sameCellsExcept [(ea s f.rt f.ot).toNat] s t ∧ sameHiLo s t ∧ t.tracing = s.tracing ∧
    sameConfig s t ∧ samePorts s t ∧ runsOnOrFaults s t

/-- LIT, CFHI, CFLO, SLL and SRL change no register, no cell but the addressed cell, and nothing else but `pc`. -/
def Obligations.OtherComputationalStoreFrame : Prop :=
  ∀ (f : OthcFields) (s t : State),
    ∀ i ∈ ([.lit f, .cfhi f, .cflo f, .sll f, .srl f] : List Instr), exec i s = .next t →
    sameRegsExcept [] s t ∧ sameCellsExcept [(ea s f.reg f.offset).toNat] s t ∧ sameHiLo s t ∧
    t.tracing = s.tracing ∧ sameConfig s t ∧ samePorts s t ∧ runsOnOrFaults s t

/-- ADDI, ANDI, BORI, NORI and XORI change no register, no cell but the addressed cell, and nothing else but `pc`. -/
def Obligations.ImmediateStoreFrame : Prop :=
  ∀ (f : ImmFields) (s t : State),
    ∀ i ∈ ([.addi f, .andi f, .bori f, .nori f, .xori f] : List Instr), exec i s = .next t →
    sameRegsExcept [] s t ∧ sameCellsExcept [(ea s f.reg f.offset).toNat] s t ∧ sameHiLo s t ∧
    t.tracing = s.tracing ∧ sameConfig s t ∧ samePorts s t ∧ runsOnOrFaults s t

/-- CPR and LWR change no register but `rt`, ARI and SRI none but `reg`, CSI and CALL none but `RA`; none changes a cell of
memory or anything else but `pc`. -/
def Obligations.RegisterWriterFrame : Prop :=
  ∀ (f : CompFields) (g : OthcFields) (h : JumpFields) (s t : State),
    ∀ p ∈ ([(.cpr f, f.rt), (.lwr f, f.rt), (.ari g, g.reg), (.sri g, g.reg), (.csi g, .ra), (.call h, .ra)] :
      List (Instr × Reg)),
    exec p.1 s = .next t →
    sameRegsExcept [p.2] s t ∧ sameCellsExcept [] s t ∧ sameHiLo s t ∧ t.tracing = s.tracing ∧
    sameConfig s t ∧ samePorts s t ∧ runsOnOrFaults s t

/-- MUL and DIV change `HI`, `LO` and `pc` alone. -/
def Obligations.MultiplyDivideFrame : Prop :=
  ∀ (f : OthcFields) (s t : State), ∀ i ∈ ([.mul f, .div f] : List Instr), exec i s = .next t →
    sameRegsExcept [] s t ∧ sameCellsExcept [] s t ∧ t.tracing = s.tracing ∧ sameConfig s t ∧ samePorts s t ∧
    runsOnOrFaults s t

/-- NOP, JMP, JREL, the six branches, JMPA and RTN change nothing but `pc`. -/
def Obligations.PcOnlyFrame : Prop :=
  ∀ (e : CompFields) (f : OthcFields) (g : ImmFields) (h : JumpFields) (s t : State),
    ∀ i ∈ ([.nop e, .jmp f, .jrel f, .beq g, .bne g, .bgez g, .bgtz g, .blez g, .bltz g, .jmpa h, .rtn h] :
      List Instr),
    exec i s = .next t →
    sameRegsExcept [] s t ∧ sameCellsExcept [] s t ∧ sameHiLo s t ∧ t.tracing = s.tracing ∧ sameConfig s t ∧
    samePorts s t ∧ runsOnOrFaults s t

/-- A system call changes no register, no `HI` or `LO` and no configuration register; RCH alone changes a cell, the
addressed one, and the input; STRA and NOTR alone change the tracing flag; EXIT alone changes `run` other than by a
fault; none changes the trace. -/
def Obligations.SystemCallFrame : Prop :=
  ∀ (f : SysFields) (s t : State),
    ∀ i ∈ ([.exit f, .pstr f, .pint f, .pch f, .rch f, .stra f, .notr f] : List Instr), exec i s = .next t →
    sameRegsExcept [] s t ∧ sameHiLo s t ∧ sameConfig s t ∧ t.trace = s.trace ∧
    sameCellsExcept (if i = .rch f then [(ea s f.reg f.offset).toNat] else []) s t ∧
    (i ≠ .rch f → t.input = s.input) ∧
    (i ≠ .stra f → i ≠ .notr f → t.tracing = s.tracing) ∧
    (i ≠ .exit f → runsOnOrFaults s t) ∧
    (i = .stra f ∨ i = .notr f → t.requests = s.requests)

/-! ## The whole machine -/

/-- R194: faults are precise. A fault in execution changes `run` alone, and a step that ends in `Faulted` records the address
it began with and leaves registers, `HI`, `LO`, memory, `tracing` and `pc` as they were. -/
def Obligations.FaultsArePrecise : Prop :=
  (∀ (i : Instr) (s t : State) (r : FaultReason) (a : Word), s.run = .running → exec i s = .next t →
    t.run = .faulted r a → t = { s with run := .faulted r s.pc }) ∧
  (∀ (s t : State) (r : FaultReason) (a : Word), step s = .next t → t.run = .faulted r a →
    a = s.pc ∧ t.pc = s.pc ∧ t.regs = s.regs ∧ t.hi = s.hi ∧ t.lo = s.lo ∧ t.mem = s.mem ∧
    t.tracing = s.tracing ∧ t.cfg = s.cfg ∧ t.strLayout = s.strLayout ∧ t.input = s.input ∧
    t.requests = s.requests)

/-- R192: in execution an instruction raises only the faults the table gives it, and each of them in some state. The spec
marks the table as derived from the rules of 41_computational.md to 45_syscall.md. -/
def Obligations.FaultCausesByInstruction : Prop :=
  (∀ (i : Instr) (s t : State) (r : FaultReason) (a : Word), s.run = .running → exec i s = .next t →
    t.run = .faulted r a → mayRaise i r) ∧
  (∀ i : Instr, accessesMemory i = true →
    ∃ (s : State) (a : Word), s.run = .running ∧ exec i s = faulted s (.addressOutOfRange a)) ∧
  (∀ f : OthcFields, ∃ s : State, s.run = .running ∧ exec (.div f) s = faulted s .divideByZero)

/-- R23: a step changes a general register only as the named or implied destination of its instruction, so `SP` and `FP`
change only as the `rt` of CPR or LWR or the `reg` of ARI or SRI (R166). -/
def Obligations.RegistersChangeOnlyAsNamed : Prop :=
  ∀ (s t : State) (r : Reg), step s = .next t → t.reg r ≠ s.reg r →
    ∃ iw i, fetchDecode s = .ok (iw, i) ∧ regTarget i = some r

/-- R27, R29, R30, R31: `HI` and `LO` change only by MUL and DIV, `tracing` only by STRA and NOTR, `Halted` is reached only
by EXIT, and the configuration registers never change. -/
def Obligations.ControlStateWriters : Prop :=
  ∀ s t : State, step s = .next t →
    (t.hi ≠ s.hi ∨ t.lo ≠ s.lo → ∃ iw f, fetchDecode s = .ok (iw, .mul f) ∨ fetchDecode s = .ok (iw, .div f)) ∧
    (t.tracing ≠ s.tracing → ∃ iw f, fetchDecode s = .ok (iw, .stra f) ∨ fetchDecode s = .ok (iw, .notr f)) ∧
    (∀ c, t.run = .halted c → ∃ iw f, fetchDecode s = .ok (iw, .exit f) ∧ c = sext9 f.offset) ∧
    t.cfg = s.cfg ∧ t.strLayout = s.strLayout

/-- R25: an instruction that is no control transfer and takes no fault leaves `pc` at `npc`. -/
def Obligations.OnlyTransfersMovePc : Prop :=
  ∀ (i : Instr) (s t : State), exec i s = .next t → isTransfer i = false →
    t.pc = s.pc + 1 ∨ ∃ r, t = { s with run := .faulted r s.pc }

/-- R62: a word that SWR stores into the text segment is the word the next step fetches from there, with no fence between. -/
def Obligations.StoreIsSeenByNextFetch : Prop :=
  ∀ (f : CompFields) (i : Instr) (s t : State), s.run = .running → s.tracing = false → Memory.wf s.mem = true →
    inMemory (ea s f.rt f.ot) = true → ea s f.rt f.ot = s.pc + 1 → inText s.cfg (s.pc + 1) = true →
    exec (.swr f) s = .next t → decode (s.reg f.rs) = .insn i →
    step t = exec i t

/-- R104: no rule of any instruction depends on whether a trace event was emitted. Two runs of any length from states that
differ only in the tracing flag and the trace give the same outcome but for those two. -/
def Obligations.TracingDoesNotInterfere : Prop :=
  ∀ (k : Nat) (s s' : State), untraced s = untraced s' →
    untracedResult (Host.Core.run Sys2Proof.core k s) = untracedResult (Host.Core.run Sys2Proof.core k s')

/-- Every step keeps the invariant. -/
def Obligations.StepKeepsInvariant : Prop :=
  ∀ s t : State, s.Inv → step s = .next t → t.Inv

/-! ## Reset -/

/-- The model's reset state meets the invariant; its configuration is the model's choice (log entry 3). -/
def Obligations.ResetMeetsInvariant : Prop := State.reset.Inv

/-- A launch the reset check accepts meets the invariant; that a launch is an operation outside the step is the model's form
(log entry 13). -/
def Obligations.LaunchMeetsInvariant : Prop :=
  ∀ (c : ConfigInputs) (text data : List Word) (input : List CharAnswer) (s : State),
    launch c text data input = some s → s.Inv

/-- R222: the core starts exactly when the configuration satisfies the source's invariant and the two added conditions. -/
def Obligations.ConfigurationCheck : Prop :=
  ∀ (c : ConfigInputs) (m : Memory) (input : List CharAnswer),
    (applyReset c m input).isSome = true ↔
      c.regs.dataStart.toNat < c.regs.stackBottom.toNat ∧ c.regs.stackBottom.toNat < 32768 ∧
      c.regs.textLength.toNat < c.regs.dataStart.toNat ∧
      c.regs.textStart.toNat + c.regs.textLength.toNat ≤ c.regs.dataStart.toNat ∧
      c.regs.dataStart.toNat + c.regs.dataLength.toNat ≤ c.regs.stackBottom.toNat

/-- R33: after reset every piece of state has its value: the loaded words where the loader put them, every other cell 0. -/
def Obligations.ResetValues : Prop :=
  ∀ (c : ConfigInputs) (text data : List Word) (input : List CharAnswer) (s : State),
    launch c text data input = some s →
    s.pc = c.regs.textStart ∧ s.reg .sp = c.regs.stackBottom ∧ s.reg .fp = c.regs.stackBottom ∧
    (∀ r, r ≠ .sp → r ≠ .fp → s.reg r = 0) ∧ s.hi = 0 ∧ s.lo = 0 ∧ s.run = .running ∧
    s.tracing = c.traceInit ∧ s.cfg = c.regs ∧
    (∀ (n : Nat) (h : n < text.length), Memory.read s.mem (c.regs.textStart.toNat + n) = text[n]) ∧
    (∀ (n : Nat) (h : n < data.length), Memory.read s.mem (c.regs.dataStart.toNat + n) = data[n]) ∧
    (∀ a, (a < c.regs.textStart.toNat ∨ c.regs.textStart.toNat + text.length ≤ a) →
      (a < c.regs.dataStart.toNat ∨ c.regs.dataStart.toNat + data.length ≤ a) → Memory.read s.mem a = 0)

/-- The model's interface (log entry 4): the word `withFetchWord` places is the one the next step executes, and registers and
`pc` are as before. -/
def Obligations.PlacedWordRunsNext : Prop :=
  ∀ (s : State) (w : Nat) (i : Instr), Memory.wf s.mem = true → inMemory s.pc = true →
    decodeTableWord 32 w = some i →
    step (s.withFetchWord 32 w) = exec i (traced (s.withFetchWord 32 w) (BitVec.ofNat 32 w) i) ∧
    (s.withFetchWord 32 w).pc = s.pc ∧ (s.withFetchWord 32 w).regs = s.regs
end

