-- ==== Sys2Proof/Laws/Encoding.lean ====
section
/-! SUPPORT. The fields of an encoded word, and a word put together from its fields: one lemma per shape and field. -/

namespace Sys2Proof

@[simp] theorem Reg.ofField_field (r : Reg) : Reg.ofField r.field = r := by cases r <;> rfl

@[simp] theorem Reg.field_ofField (b : BitVec 3) : (Reg.ofField b).field = b := by
  revert b; decide

/-! ## Slices of an appended word -/

theorem slice_low {m n : Nat} (a : BitVec m) (b : BitVec n) : (a ++ b).extractLsb' 0 n = b := by
  simp [BitVec.extractLsb'_append_eq_of_add_le]

theorem slice_last {m n : Nat} (a : BitVec m) (b : BitVec n) : (a ++ b).extractLsb' n m = a := by
  simp [BitVec.extractLsb'_append_eq_of_le]

theorem slice_above {m n : Nat} (a : BitVec m) (b : BitVec n) (s k : Nat) :
    (a ++ b).extractLsb' (s + n) k = a.extractLsb' s k := by
  rw [BitVec.extractLsb'_append_eq_of_le (by omega), Nat.add_sub_cancel]

theorem slice_join {n : Nat} (w : BitVec n) (s k l : Nat) :
    w.extractLsb' (s + l) k ++ w.extractLsb' s l = w.extractLsb' s (k + l) :=
  BitVec.extractLsb'_append_extractLsb'_eq_extractLsb' rfl

/-- A field read as a number is that number's bit pattern. -/
theorem eq_ofNat_of_toNat {n k : Nat} {x : BitVec n} (h : x.toNat = k) : x = BitVec.ofNat n k := by
  rw [← h, BitVec.ofNat_toNat, BitVec.setWidth_eq]

/-! ## The computational shape -/

@[simp] theorem opField_compWord (f : CompFields) (func : BitVec 4) : opField (compWord f func) = 0#4 :=
  (slice_above _ func 24 4).trans <| (slice_above _ f.os 15 4).trans <| (slice_above _ f.rs.field 12 4).trans <|
    (slice_above _ f.ot 3 4).trans <| slice_last 0#4 f.rt.field

@[simp] theorem funcField_compWord (f : CompFields) (func : BitVec 4) : funcField (compWord f func) = func :=
  slice_low _ func

@[simp] theorem compFields_compWord (f : CompFields) (func : BitVec 4) : compFields (compWord f func) = f := by
  have hrt : (compWord f func).extractLsb' 25 3 = f.rt.field :=
    (slice_above _ func 21 3).trans <| (slice_above _ f.os 12 3).trans <| (slice_above _ f.rs.field 9 3).trans <|
      (slice_above _ f.ot 0 3).trans <| slice_low 0#4 f.rt.field
  have hot : (compWord f func).extractLsb' 16 9 = f.ot :=
    (slice_above _ func 12 9).trans <| (slice_above _ f.os 3 9).trans <| (slice_above _ f.rs.field 0 9).trans <|
      slice_low _ f.ot
  have hrs : (compWord f func).extractLsb' 13 3 = f.rs.field :=
    (slice_above _ func 9 3).trans <| (slice_above _ f.os 0 3).trans <| slice_low _ f.rs.field
  have hos : (compWord f func).extractLsb' 4 9 = f.os :=
    (slice_above _ func 0 9).trans <| slice_low _ f.os
  simp [compFields, hrt, hot, hrs, hos]

theorem compWord_fields (w : Word) (h : opField w = 0#4) : compWord (compFields w) (funcField w) = w := by
  have hw : w.extractLsb' 28 4 ++ w.extractLsb' 25 3 ++ w.extractLsb' 16 9 ++ w.extractLsb' 13 3
      ++ w.extractLsb' 4 9 ++ w.extractLsb' 0 4 = w := by
    rw [slice_join w 25 4 3, slice_join w 16 7 9, slice_join w 13 16 3, slice_join w 4 19 9, slice_join w 0 28 4]
    exact BitVec.extractLsb'_eq_self
  simp only [compWord, compFields, Reg.field_ofField, funcField, ← h, opField]
  exact hw

/-! ## The other-computational shape -/

@[simp] theorem opField_othcWord (f : OthcFields) (func : BitVec 4) : opField (othcWord f func) = 1#4 :=
  (slice_above _ func 24 4).trans <| (slice_above _ f.arg 12 4).trans <| (slice_above _ f.offset 3 4).trans <|
    slice_last 1#4 f.reg.field

@[simp] theorem funcField_othcWord (f : OthcFields) (func : BitVec 4) : funcField (othcWord f func) = func :=
  slice_low _ func

@[simp] theorem othcFields_othcWord (f : OthcFields) (func : BitVec 4) : othcFields (othcWord f func) = f := by
  have hreg : (othcWord f func).extractLsb' 25 3 = f.reg.field :=
    (slice_above _ func 21 3).trans <| (slice_above _ f.arg 9 3).trans <| (slice_above _ f.offset 0 3).trans <|
      slice_low 1#4 f.reg.field
  have hoffset : (othcWord f func).extractLsb' 16 9 = f.offset :=
    (slice_above _ func 12 9).trans <| (slice_above _ f.arg 0 9).trans <| slice_low _ f.offset
  have harg : (othcWord f func).extractLsb' 4 12 = f.arg :=
    (slice_above _ func 0 12).trans <| slice_low _ f.arg
  simp [othcFields, hreg, hoffset, harg]

theorem othcWord_fields (w : Word) (h : opField w = 1#4) : othcWord (othcFields w) (funcField w) = w := by
  have hw : w.extractLsb' 28 4 ++ w.extractLsb' 25 3 ++ w.extractLsb' 16 9 ++ w.extractLsb' 4 12
      ++ w.extractLsb' 0 4 = w := by
    rw [slice_join w 25 4 3, slice_join w 16 7 9, slice_join w 4 16 12, slice_join w 0 28 4]
    exact BitVec.extractLsb'_eq_self
  simp only [othcWord, othcFields, Reg.field_ofField, funcField, ← h, opField]
  exact hw

/-! ## The immediate shape -/

@[simp] theorem opField_immWord (op : BitVec 4) (f : ImmFields) : opField (immWord op f) = op :=
  (slice_above _ f.immed 12 4).trans <| (slice_above _ f.offset 3 4).trans <| slice_last op f.reg.field

@[simp] theorem immFields_immWord (op : BitVec 4) (f : ImmFields) : immFields (immWord op f) = f := by
  have hreg : (immWord op f).extractLsb' 25 3 = f.reg.field :=
    (slice_above _ f.immed 9 3).trans <| (slice_above _ f.offset 0 3).trans <| slice_low op f.reg.field
  have hoffset : (immWord op f).extractLsb' 16 9 = f.offset :=
    (slice_above _ f.immed 0 9).trans <| slice_low _ f.offset
  have himmed : (immWord op f).extractLsb' 0 16 = f.immed := slice_low _ f.immed
  simp [immFields, hreg, hoffset, himmed]

theorem immWord_fields (w : Word) : immWord (opField w) (immFields w) = w := by
  have hw : w.extractLsb' 28 4 ++ w.extractLsb' 25 3 ++ w.extractLsb' 16 9 ++ w.extractLsb' 0 16 = w := by
    rw [slice_join w 25 4 3, slice_join w 16 7 9, slice_join w 0 16 16]
    exact BitVec.extractLsb'_eq_self
  simp only [immWord, immFields, Reg.field_ofField, opField]
  exact hw

/-! ## The jump shape -/

@[simp] theorem opField_jumpWord (op : BitVec 4) (f : JumpFields) : opField (jumpWord op f) = op :=
  slice_last op f.addr

@[simp] theorem jumpFields_jumpWord (op : BitVec 4) (f : JumpFields) : jumpFields (jumpWord op f) = f := by
  have haddr : (jumpWord op f).extractLsb' 0 28 = f.addr := slice_low op f.addr
  simp [jumpFields, haddr]

theorem jumpWord_fields (w : Word) : jumpWord (opField w) (jumpFields w) = w := by
  have hw : w.extractLsb' 28 4 ++ w.extractLsb' 0 28 = w := by
    rw [slice_join w 0 4 28]
    exact BitVec.extractLsb'_eq_self
  exact hw

/-! ## The system-call shape -/

@[simp] theorem opField_sysWord (f : SysFields) (code : BitVec 12) : opField (sysWord f code) = 1#4 :=
  opField_othcWord ⟨f.reg, f.offset, code⟩ 15#4

@[simp] theorem funcField_sysWord (f : SysFields) (code : BitVec 12) : funcField (sysWord f code) = 15#4 :=
  funcField_othcWord ⟨f.reg, f.offset, code⟩ 15#4

@[simp] theorem codeField_sysWord (f : SysFields) (code : BitVec 12) : codeField (sysWord f code) = code :=
  congrArg OthcFields.arg (othcFields_othcWord ⟨f.reg, f.offset, code⟩ 15#4)

@[simp] theorem sysFields_sysWord (f : SysFields) (code : BitVec 12) : sysFields (sysWord f code) = f := by
  have h := othcFields_othcWord ⟨f.reg, f.offset, code⟩ 15#4
  have hreg := congrArg OthcFields.reg h
  have hoffset := congrArg OthcFields.offset h
  simp only [othcFields] at hreg hoffset
  change Reg.ofField ((sysWord f code).extractLsb' 25 3) = f.reg at hreg
  change (sysWord f code).extractLsb' 16 9 = f.offset at hoffset
  simp only [sysFields, hreg, hoffset]

theorem sysWord_fields (w : Word) (hop : opField w = 1#4) (hfunc : funcField w = 15#4) :
    sysWord (sysFields w) (codeField w) = w := by
  have h := othcWord_fields w hop
  rw [hfunc] at h
  exact h

end Sys2Proof
end

