-- ==== Sys2Proof/Laws/Memory.lean ====
section
/-! SUPPORT. Memory: a read after a write, and every memory operation keeps the canonical form. -/

namespace Sys2Proof.Machine

@[simp] theorem Memory.read_nil (a : Nat) : Memory.read [] a = 0 := rfl

theorem Memory.wfFrom_cons {low k : Nat} {w : Word} {rest : Memory} :
    Memory.wfFrom low ((k, w) :: rest) = true ↔
      low ≤ k ∧ k < memorySize ∧ w ≠ 0 ∧ Memory.wfFrom (k + 1) rest = true := by
  simp [Memory.wfFrom, Memory.unlisted, and_assoc]

/-- A list whose addresses start at `low` or above reads 0 below. -/
theorem Memory.read_below {m : Memory} {low a : Nat} (h : Memory.wfFrom low m = true) (ha : a < low) :
    Memory.read m a = 0 := by
  induction m generalizing low with
  | nil => rfl
  | cons c rest ih =>
    obtain ⟨k, w⟩ := c
    obtain ⟨hk, -, -, hrest⟩ := Memory.wfFrom_cons.mp h
    rw [Memory.read, if_neg (by omega)]
    exact ih hrest (by omega)

/-- A canonical memory reads 0 outside the array. -/
theorem Memory.read_outside {m : Memory} {low a : Nat} (h : Memory.wfFrom low m = true) (ha : memorySize ≤ a) :
    Memory.read m a = 0 := by
  induction m generalizing low with
  | nil => rfl
  | cons c rest ih =>
    obtain ⟨k, w⟩ := c
    obtain ⟨-, hkm, -, hrest⟩ := Memory.wfFrom_cons.mp h
    rw [Memory.read, if_neg (by omega)]
    exact ih hrest

/-- The cells a canonical memory lists are those that do not read 0. -/
theorem Memory.mem_iff_read {m : Memory} {low a : Nat} {v : Word} (h : Memory.wfFrom low m = true) :
    (a, v) ∈ m ↔ v ≠ 0 ∧ Memory.read m a = v := by
  induction m generalizing low with
  | nil =>
    constructor
    · intro h
      cases h
    · rintro ⟨hv, h0⟩
      exact absurd h0.symm hv
  | cons c rest ih =>
    obtain ⟨k, w⟩ := c
    obtain ⟨-, -, hw, hrest⟩ := Memory.wfFrom_cons.mp h
    rw [List.mem_cons, ih hrest, Memory.read]
    by_cases hk : k = a
    · subst hk
      rw [if_pos rfl, Memory.read_below hrest (by omega)]
      constructor
      · rintro (heq | ⟨hv, h0⟩)
        · cases heq
          exact ⟨hw, rfl⟩
        · exact absurd h0.symm hv
      · rintro ⟨-, rfl⟩
        exact .inl rfl
    · rw [if_neg hk]
      constructor
      · rintro (heq | h')
        · cases heq
          exact absurd rfl hk
        · exact h'
      · exact .inr

/-- A write leaves every other address alone. -/
theorem Memory.read_write_other (m : Memory) {a b : Nat} (v : Word) (h : b ≠ a) :
    Memory.read (Memory.write m a v) b = Memory.read m b := by
  induction m with
  | nil => simp only [Memory.write]; split <;> simp [Memory.read, Memory.unlisted, Ne.symm h]
  | cons c rest ih =>
    obtain ⟨k, w⟩ := c
    simp only [Memory.write]
    split
    · split <;> simp [Memory.read, Ne.symm h]
    · split
      · subst_vars
        split <;> simp [Memory.read, Ne.symm h]
      · simp [Memory.read, ih]

/-- In a canonical memory a read after a write to the same address gives the value written. -/
theorem Memory.read_write_same {m : Memory} {low a : Nat} (v : Word) (hm : Memory.wfFrom low m = true) :
    Memory.read (Memory.write m a v) a = v := by
  induction m generalizing low with
  | nil => simp only [Memory.write]; split <;> simp_all [Memory.read, Memory.unlisted]
  | cons c rest ih =>
    obtain ⟨k, w⟩ := c
    obtain ⟨-, -, -, hrest⟩ := Memory.wfFrom_cons.mp hm
    simp only [Memory.write]
    split
    · rename_i hak
      split
      · rename_i hv
        rw [Memory.read, if_neg (by omega), Memory.read_below hrest (by omega), hv]
        rfl
      · simp [Memory.read]
    · split
      · subst_vars
        split
        · rename_i hv
          rw [Memory.read_below hrest (by omega), hv]
          rfl
        · simp [Memory.read]
      · rw [Memory.read, if_neg (by omega)]
        exact ih hrest

theorem Memory.wfFrom_mono {m : Memory} {low low' : Nat} (hm : Memory.wfFrom low m = true) (h : low' ≤ low) :
    Memory.wfFrom low' m = true := by
  cases m with
  | nil => rfl
  | cons c rest =>
    obtain ⟨k, w⟩ := c
    obtain ⟨hk, hrest⟩ := Memory.wfFrom_cons.mp hm
    exact Memory.wfFrom_cons.mpr ⟨by omega, hrest⟩

theorem Memory.write_wfFrom {m : Memory} {low a : Nat} (v : Word) (hm : Memory.wfFrom low m = true) (hlow : low ≤ a)
    (ha : a < memorySize) : Memory.wfFrom low (Memory.write m a v) = true := by
  induction m generalizing low with
  | nil =>
    simp only [Memory.write]
    split
    · rfl
    · rename_i hv
      exact Memory.wfFrom_cons.mpr ⟨hlow, ha, hv, rfl⟩
  | cons c rest ih =>
    obtain ⟨k, w⟩ := c
    obtain ⟨hk, hkm, hw, hrest⟩ := Memory.wfFrom_cons.mp hm
    simp only [Memory.write]
    split
    · rename_i hak
      split
      · exact hm
      · rename_i hv
        exact Memory.wfFrom_cons.mpr ⟨hlow, ha, hv, Memory.wfFrom_cons.mpr ⟨hak, hkm, hw, hrest⟩⟩
    · split
      · subst_vars
        split
        · exact Memory.wfFrom_mono hrest (by omega)
        · rename_i hv
          exact Memory.wfFrom_cons.mpr ⟨hk, hkm, hv, hrest⟩
      · exact Memory.wfFrom_cons.mpr ⟨hk, hkm, hw, ih hrest (by omega)⟩

/-- A write to a cell of the array keeps the canonical form. -/
theorem Memory.write_wf {m : Memory} {a : Nat} (v : Word) (hm : Memory.wf m = true) (ha : a < memorySize) :
    Memory.wf (Memory.write m a v) = true :=
  Memory.write_wfFrom v hm (Nat.zero_le a) ha

/-- The address `inMemory` admits is an address of the array. -/
theorem inMemory_iff {a : Word} : inMemory a = true ↔ a.toNat < memorySize := by simp [inMemory]

theorem placeInMemory_wf {m : Memory} (a iw : Word) (hm : Memory.wf m = true) :
    Memory.wf (placeInMemory m a iw) = true := by
  unfold placeInMemory
  split
  · exact Memory.write_wf iw hm (inMemory_iff.mp ‹_›)
  · exact hm

/-- Loading words that fit the array keeps the canonical form. -/
theorem loadWords_wf {m : Memory} {base : Nat} (ws : List Word) (hm : Memory.wf m = true)
    (h : base + ws.length ≤ memorySize) : Memory.wf (loadWords m base ws) = true := by
  induction ws generalizing m base with
  | nil => exact hm
  | cons w ws ih =>
    simp only [List.length_cons] at h
    exact ih (Memory.write_wf w hm (by omega)) (by omega)

/-- Loading changes no address outside the segment. -/
theorem loadWords_read_other {m : Memory} {base a : Nat} (ws : List Word)
    (h : a < base ∨ base + ws.length ≤ a) : Memory.read (loadWords m base ws) a = Memory.read m a := by
  induction ws generalizing m base with
  | nil => rfl
  | cons w ws ih =>
    simp only [List.length_cons] at h
    rw [loadWords, ih (by omega), Memory.read_write_other m w (by omega)]

/-- Canonical memories that read alike are the same list. -/
theorem Memory.eq_of_read {m m' : Memory} {low : Nat} (hm : Memory.wfFrom low m = true)
    (hm' : Memory.wfFrom low m' = true) (h : ∀ a, Memory.read m a = Memory.read m' a) : m = m' := by
  induction m generalizing m' low with
  | nil =>
    cases m' with
    | nil => rfl
    | cons c rest =>
      obtain ⟨k, w⟩ := c
      have hk := h k
      simp [Memory.read] at hk
      exact absurd hk.symm (Memory.wfFrom_cons.mp hm').2.2.1
  | cons c rest ih =>
    obtain ⟨k, w⟩ := c
    obtain ⟨hlk, hkm, hw, hrest⟩ := Memory.wfFrom_cons.mp hm
    cases m' with
    | nil =>
      have hk := h k
      simp [Memory.read] at hk
      exact absurd hk hw
    | cons c' rest' =>
      obtain ⟨k', w'⟩ := c'
      obtain ⟨hlk', hkm', hw', hrest'⟩ := Memory.wfFrom_cons.mp hm'
      have hkk : k = k' := by
        rcases Nat.lt_trichotomy k k' with hlt | heq | hgt
        · have hk := h k
          rw [Memory.read, if_pos rfl, Memory.read, if_neg (by omega), Memory.read_below hrest' (by omega)] at hk
          exact absurd hk hw
        · exact heq
        · have hk := h k'
          rw [Memory.read, if_neg (by omega), Memory.read_below hrest (by omega), Memory.read, if_pos rfl] at hk
          exact absurd hk.symm hw'
      subst hkk
      have hww : w = w' := by simpa [Memory.read] using h k
      subst hww
      refine congrArg _ (ih hrest hrest' fun a => ?_)
      by_cases hak : k = a
      · subst hak
        rw [Memory.read_below hrest (by omega), Memory.read_below hrest' (by omega)]
      · simpa [Memory.read, hak] using h a

end Sys2Proof.Machine
end

