-- ==== Sys2Proof/Laws/State.lean ====
section
/-! SUPPORT. What each update of the state does to each field: one lemma per field per update, true by definition, so that
no proof unfolds a record update. -/

namespace Sys2Proof.Machine

@[simp] theorem RegFile.get_set (x : RegFile) (r r' : Reg) (v : Word) :
    (x.set r v).get r' = if r' = r then v else x.get r' := by
  cases r <;> cases r' <;> rfl

theorem RegFile.ext_get {x y : RegFile} (h : ∀ r, x.get r = y.get r) : x = y := by
  have hgp := h .gp
  have hsp := h .sp
  have hfp := h .fp
  have h3 := h .r3
  have h4 := h .r4
  have h5 := h .r5
  have h6 := h .r6
  have hra := h .ra
  cases x; cases y
  simp_all [RegFile.get]

/-! ## setReg -/

@[simp] theorem State.setReg_regs (s : State) (r : Reg) (v : Word) : (s.setReg r v).regs = s.regs.set r v := rfl
@[simp] theorem State.setReg_pc (s : State) (r : Reg) (v : Word) : (s.setReg r v).pc = s.pc := rfl
@[simp] theorem State.setReg_hi (s : State) (r : Reg) (v : Word) : (s.setReg r v).hi = s.hi := rfl
@[simp] theorem State.setReg_lo (s : State) (r : Reg) (v : Word) : (s.setReg r v).lo = s.lo := rfl
@[simp] theorem State.setReg_mem (s : State) (r : Reg) (v : Word) : (s.setReg r v).mem = s.mem := rfl
@[simp] theorem State.setReg_tracing (s : State) (r : Reg) (v : Word) : (s.setReg r v).tracing = s.tracing := rfl
@[simp] theorem State.setReg_run (s : State) (r : Reg) (v : Word) : (s.setReg r v).run = s.run := rfl
@[simp] theorem State.setReg_cfg (s : State) (r : Reg) (v : Word) : (s.setReg r v).cfg = s.cfg := rfl
@[simp] theorem State.setReg_strLayout (s : State) (r : Reg) (v : Word) : (s.setReg r v).strLayout = s.strLayout := rfl
@[simp] theorem State.setReg_input (s : State) (r : Reg) (v : Word) : (s.setReg r v).input = s.input := rfl
@[simp] theorem State.setReg_requests (s : State) (r : Reg) (v : Word) : (s.setReg r v).requests = s.requests := rfl
@[simp] theorem State.setReg_trace (s : State) (r : Reg) (v : Word) : (s.setReg r v).trace = s.trace := rfl
@[simp] theorem State.setReg_reg (s : State) (r r' : Reg) (v : Word) :
    (s.setReg r v).reg r' = if r' = r then v else s.reg r' := RegFile.get_set ..

/-! ## setPc -/

@[simp] theorem State.setPc_regs (s : State) (v : Word) : (s.setPc v).regs = s.regs := rfl
@[simp] theorem State.setPc_pc (s : State) (v : Word) : (s.setPc v).pc = v := rfl
@[simp] theorem State.setPc_hi (s : State) (v : Word) : (s.setPc v).hi = s.hi := rfl
@[simp] theorem State.setPc_lo (s : State) (v : Word) : (s.setPc v).lo = s.lo := rfl
@[simp] theorem State.setPc_mem (s : State) (v : Word) : (s.setPc v).mem = s.mem := rfl
@[simp] theorem State.setPc_tracing (s : State) (v : Word) : (s.setPc v).tracing = s.tracing := rfl
@[simp] theorem State.setPc_run (s : State) (v : Word) : (s.setPc v).run = s.run := rfl
@[simp] theorem State.setPc_cfg (s : State) (v : Word) : (s.setPc v).cfg = s.cfg := rfl
@[simp] theorem State.setPc_strLayout (s : State) (v : Word) : (s.setPc v).strLayout = s.strLayout := rfl
@[simp] theorem State.setPc_input (s : State) (v : Word) : (s.setPc v).input = s.input := rfl
@[simp] theorem State.setPc_requests (s : State) (v : Word) : (s.setPc v).requests = s.requests := rfl
@[simp] theorem State.setPc_trace (s : State) (v : Word) : (s.setPc v).trace = s.trace := rfl
@[simp] theorem State.setPc_reg (s : State) (v : Word) (r' : Reg) : (s.setPc v).reg r' = s.reg r' := rfl

/-! ## setHiLo -/

@[simp] theorem State.setHiLo_regs (s : State) (h l : Word) : (s.setHiLo h l).regs = s.regs := rfl
@[simp] theorem State.setHiLo_pc (s : State) (h l : Word) : (s.setHiLo h l).pc = s.pc := rfl
@[simp] theorem State.setHiLo_hi (s : State) (h l : Word) : (s.setHiLo h l).hi = h := rfl
@[simp] theorem State.setHiLo_lo (s : State) (h l : Word) : (s.setHiLo h l).lo = l := rfl
@[simp] theorem State.setHiLo_mem (s : State) (h l : Word) : (s.setHiLo h l).mem = s.mem := rfl
@[simp] theorem State.setHiLo_tracing (s : State) (h l : Word) : (s.setHiLo h l).tracing = s.tracing := rfl
@[simp] theorem State.setHiLo_run (s : State) (h l : Word) : (s.setHiLo h l).run = s.run := rfl
@[simp] theorem State.setHiLo_cfg (s : State) (h l : Word) : (s.setHiLo h l).cfg = s.cfg := rfl
@[simp] theorem State.setHiLo_strLayout (s : State) (h l : Word) : (s.setHiLo h l).strLayout = s.strLayout := rfl
@[simp] theorem State.setHiLo_input (s : State) (h l : Word) : (s.setHiLo h l).input = s.input := rfl
@[simp] theorem State.setHiLo_requests (s : State) (h l : Word) : (s.setHiLo h l).requests = s.requests := rfl
@[simp] theorem State.setHiLo_trace (s : State) (h l : Word) : (s.setHiLo h l).trace = s.trace := rfl
@[simp] theorem State.setHiLo_reg (s : State) (h l : Word) (r' : Reg) : (s.setHiLo h l).reg r' = s.reg r' := rfl

/-! ## setMem -/

@[simp] theorem State.setMem_regs (s : State) (m : Memory) : (s.setMem m).regs = s.regs := rfl
@[simp] theorem State.setMem_pc (s : State) (m : Memory) : (s.setMem m).pc = s.pc := rfl
@[simp] theorem State.setMem_hi (s : State) (m : Memory) : (s.setMem m).hi = s.hi := rfl
@[simp] theorem State.setMem_lo (s : State) (m : Memory) : (s.setMem m).lo = s.lo := rfl
@[simp] theorem State.setMem_mem (s : State) (m : Memory) : (s.setMem m).mem = m := rfl
@[simp] theorem State.setMem_tracing (s : State) (m : Memory) : (s.setMem m).tracing = s.tracing := rfl
@[simp] theorem State.setMem_run (s : State) (m : Memory) : (s.setMem m).run = s.run := rfl
@[simp] theorem State.setMem_cfg (s : State) (m : Memory) : (s.setMem m).cfg = s.cfg := rfl
@[simp] theorem State.setMem_strLayout (s : State) (m : Memory) : (s.setMem m).strLayout = s.strLayout := rfl
@[simp] theorem State.setMem_input (s : State) (m : Memory) : (s.setMem m).input = s.input := rfl
@[simp] theorem State.setMem_requests (s : State) (m : Memory) : (s.setMem m).requests = s.requests := rfl
@[simp] theorem State.setMem_trace (s : State) (m : Memory) : (s.setMem m).trace = s.trace := rfl
@[simp] theorem State.setMem_reg (s : State) (m : Memory) (r' : Reg) : (s.setMem m).reg r' = s.reg r' := rfl

/-! ## setTracing -/

@[simp] theorem State.setTracing_regs (s : State) (b : Bool) : (s.setTracing b).regs = s.regs := rfl
@[simp] theorem State.setTracing_pc (s : State) (b : Bool) : (s.setTracing b).pc = s.pc := rfl
@[simp] theorem State.setTracing_hi (s : State) (b : Bool) : (s.setTracing b).hi = s.hi := rfl
@[simp] theorem State.setTracing_lo (s : State) (b : Bool) : (s.setTracing b).lo = s.lo := rfl
@[simp] theorem State.setTracing_mem (s : State) (b : Bool) : (s.setTracing b).mem = s.mem := rfl
@[simp] theorem State.setTracing_tracing (s : State) (b : Bool) : (s.setTracing b).tracing = b := rfl
@[simp] theorem State.setTracing_run (s : State) (b : Bool) : (s.setTracing b).run = s.run := rfl
@[simp] theorem State.setTracing_cfg (s : State) (b : Bool) : (s.setTracing b).cfg = s.cfg := rfl
@[simp] theorem State.setTracing_strLayout (s : State) (b : Bool) : (s.setTracing b).strLayout = s.strLayout := rfl
@[simp] theorem State.setTracing_input (s : State) (b : Bool) : (s.setTracing b).input = s.input := rfl
@[simp] theorem State.setTracing_requests (s : State) (b : Bool) : (s.setTracing b).requests = s.requests := rfl
@[simp] theorem State.setTracing_trace (s : State) (b : Bool) : (s.setTracing b).trace = s.trace := rfl
@[simp] theorem State.setTracing_reg (s : State) (b : Bool) (r' : Reg) : (s.setTracing b).reg r' = s.reg r' := rfl

/-! ## setRun -/

@[simp] theorem State.setRun_regs (s : State) (r : RunState) : (s.setRun r).regs = s.regs := rfl
@[simp] theorem State.setRun_pc (s : State) (r : RunState) : (s.setRun r).pc = s.pc := rfl
@[simp] theorem State.setRun_hi (s : State) (r : RunState) : (s.setRun r).hi = s.hi := rfl
@[simp] theorem State.setRun_lo (s : State) (r : RunState) : (s.setRun r).lo = s.lo := rfl
@[simp] theorem State.setRun_mem (s : State) (r : RunState) : (s.setRun r).mem = s.mem := rfl
@[simp] theorem State.setRun_tracing (s : State) (r : RunState) : (s.setRun r).tracing = s.tracing := rfl
@[simp] theorem State.setRun_run (s : State) (r : RunState) : (s.setRun r).run = r := rfl
@[simp] theorem State.setRun_cfg (s : State) (r : RunState) : (s.setRun r).cfg = s.cfg := rfl
@[simp] theorem State.setRun_strLayout (s : State) (r : RunState) : (s.setRun r).strLayout = s.strLayout := rfl
@[simp] theorem State.setRun_input (s : State) (r : RunState) : (s.setRun r).input = s.input := rfl
@[simp] theorem State.setRun_requests (s : State) (r : RunState) : (s.setRun r).requests = s.requests := rfl
@[simp] theorem State.setRun_trace (s : State) (r : RunState) : (s.setRun r).trace = s.trace := rfl
@[simp] theorem State.setRun_reg (s : State) (r : RunState) (r' : Reg) : (s.setRun r).reg r' = s.reg r' := rfl

/-! ## setInput -/

@[simp] theorem State.setInput_regs (s : State) (l : List CharAnswer) : (s.setInput l).regs = s.regs := rfl
@[simp] theorem State.setInput_pc (s : State) (l : List CharAnswer) : (s.setInput l).pc = s.pc := rfl
@[simp] theorem State.setInput_hi (s : State) (l : List CharAnswer) : (s.setInput l).hi = s.hi := rfl
@[simp] theorem State.setInput_lo (s : State) (l : List CharAnswer) : (s.setInput l).lo = s.lo := rfl
@[simp] theorem State.setInput_mem (s : State) (l : List CharAnswer) : (s.setInput l).mem = s.mem := rfl
@[simp] theorem State.setInput_tracing (s : State) (l : List CharAnswer) : (s.setInput l).tracing = s.tracing := rfl
@[simp] theorem State.setInput_run (s : State) (l : List CharAnswer) : (s.setInput l).run = s.run := rfl
@[simp] theorem State.setInput_cfg (s : State) (l : List CharAnswer) : (s.setInput l).cfg = s.cfg := rfl
@[simp] theorem State.setInput_strLayout (s : State) (l : List CharAnswer) : (s.setInput l).strLayout = s.strLayout := rfl
@[simp] theorem State.setInput_input (s : State) (l : List CharAnswer) : (s.setInput l).input = l := rfl
@[simp] theorem State.setInput_requests (s : State) (l : List CharAnswer) : (s.setInput l).requests = s.requests := rfl
@[simp] theorem State.setInput_trace (s : State) (l : List CharAnswer) : (s.setInput l).trace = s.trace := rfl
@[simp] theorem State.setInput_reg (s : State) (l : List CharAnswer) (r' : Reg) : (s.setInput l).reg r' = s.reg r' := rfl

/-! ## request -/

@[simp] theorem State.request_regs (s : State) (q : EnvRequest) : (s.request q).regs = s.regs := rfl
@[simp] theorem State.request_pc (s : State) (q : EnvRequest) : (s.request q).pc = s.pc := rfl
@[simp] theorem State.request_hi (s : State) (q : EnvRequest) : (s.request q).hi = s.hi := rfl
@[simp] theorem State.request_lo (s : State) (q : EnvRequest) : (s.request q).lo = s.lo := rfl
@[simp] theorem State.request_mem (s : State) (q : EnvRequest) : (s.request q).mem = s.mem := rfl
@[simp] theorem State.request_tracing (s : State) (q : EnvRequest) : (s.request q).tracing = s.tracing := rfl
@[simp] theorem State.request_run (s : State) (q : EnvRequest) : (s.request q).run = s.run := rfl
@[simp] theorem State.request_cfg (s : State) (q : EnvRequest) : (s.request q).cfg = s.cfg := rfl
@[simp] theorem State.request_strLayout (s : State) (q : EnvRequest) : (s.request q).strLayout = s.strLayout := rfl
@[simp] theorem State.request_input (s : State) (q : EnvRequest) : (s.request q).input = s.input := rfl
@[simp] theorem State.request_requests (s : State) (q : EnvRequest) : (s.request q).requests = s.requests ++ [q] := rfl
@[simp] theorem State.request_trace (s : State) (q : EnvRequest) : (s.request q).trace = s.trace := rfl
@[simp] theorem State.request_reg (s : State) (q : EnvRequest) (r' : Reg) : (s.request q).reg r' = s.reg r' := rfl

/-! ## emit -/

@[simp] theorem State.emit_regs (s : State) (e : TraceEvent) : (s.emit e).regs = s.regs := rfl
@[simp] theorem State.emit_pc (s : State) (e : TraceEvent) : (s.emit e).pc = s.pc := rfl
@[simp] theorem State.emit_hi (s : State) (e : TraceEvent) : (s.emit e).hi = s.hi := rfl
@[simp] theorem State.emit_lo (s : State) (e : TraceEvent) : (s.emit e).lo = s.lo := rfl
@[simp] theorem State.emit_mem (s : State) (e : TraceEvent) : (s.emit e).mem = s.mem := rfl
@[simp] theorem State.emit_tracing (s : State) (e : TraceEvent) : (s.emit e).tracing = s.tracing := rfl
@[simp] theorem State.emit_run (s : State) (e : TraceEvent) : (s.emit e).run = s.run := rfl
@[simp] theorem State.emit_cfg (s : State) (e : TraceEvent) : (s.emit e).cfg = s.cfg := rfl
@[simp] theorem State.emit_strLayout (s : State) (e : TraceEvent) : (s.emit e).strLayout = s.strLayout := rfl
@[simp] theorem State.emit_input (s : State) (e : TraceEvent) : (s.emit e).input = s.input := rfl
@[simp] theorem State.emit_requests (s : State) (e : TraceEvent) : (s.emit e).requests = s.requests := rfl
@[simp] theorem State.emit_trace (s : State) (e : TraceEvent) : (s.emit e).trace = s.trace ++ [e] := rfl
@[simp] theorem State.emit_reg (s : State) (e : TraceEvent) (r' : Reg) : (s.emit e).reg r' = s.reg r' := rfl

/-! ## The state a fault leads to -/

@[simp] theorem faultEntry_regs (s : State) (r : FaultReason) : (faultEntry s r).regs = s.regs := rfl
@[simp] theorem faultEntry_pc (s : State) (r : FaultReason) : (faultEntry s r).pc = s.pc := rfl
@[simp] theorem faultEntry_hi (s : State) (r : FaultReason) : (faultEntry s r).hi = s.hi := rfl
@[simp] theorem faultEntry_lo (s : State) (r : FaultReason) : (faultEntry s r).lo = s.lo := rfl
@[simp] theorem faultEntry_mem (s : State) (r : FaultReason) : (faultEntry s r).mem = s.mem := rfl
@[simp] theorem faultEntry_tracing (s : State) (r : FaultReason) : (faultEntry s r).tracing = s.tracing := rfl
@[simp] theorem faultEntry_run (s : State) (r : FaultReason) : (faultEntry s r).run = .faulted r s.pc := rfl
@[simp] theorem faultEntry_cfg (s : State) (r : FaultReason) : (faultEntry s r).cfg = s.cfg := rfl
@[simp] theorem faultEntry_strLayout (s : State) (r : FaultReason) : (faultEntry s r).strLayout = s.strLayout := rfl
@[simp] theorem faultEntry_input (s : State) (r : FaultReason) : (faultEntry s r).input = s.input := rfl
@[simp] theorem faultEntry_requests (s : State) (r : FaultReason) : (faultEntry s r).requests = s.requests := rfl
@[simp] theorem faultEntry_trace (s : State) (r : FaultReason) : (faultEntry s r).trace = s.trace := rfl
@[simp] theorem faultEntry_reg (s : State) (r : FaultReason) (r' : Reg) : (faultEntry s r).reg r' = s.reg r' := rfl

end Sys2Proof.Machine
end

