-- ==== Sys2Proof/Laws/Ops.lean ====
section
/-! SUPPORT. What each shared operation can do: its equation in each case, and one lemma that says everything a next state
of it can be. -/

namespace Sys2Proof.Machine

/-! ## Equations -/

@[simp] theorem raise_eq (s : State) (r : FaultReason) : raise s r = .next (faultEntry s r) := rfl
@[simp] theorem complete_eq (s : State) : complete s = .next (s.setPc (npc s)) := rfl
@[simp] theorem transferTo_eq (s : State) (v : Word) : transferTo s v = .next (s.setPc v) := rfl

theorem readCell_inside {s : State} {a : Word} (k : Word → Result) (h : inMemory a = true) :
    readCell s a k = k (Memory.read s.mem a.toNat) := if_pos h

theorem readCell_outside {s : State} {a : Word} (k : Word → Result) (h : ¬ inMemory a = true) :
    readCell s a k = .next (faultEntry s (.addressOutOfRange a)) := if_neg h

theorem writeCell_inside {s : State} {a : Word} (v : Word) (h : inMemory a = true) :
    writeCell s a v = .next ((s.setMem (Memory.write s.mem a.toNat v)).setPc (npc s)) := if_pos h

theorem writeCell_outside {s : State} {a : Word} (v : Word) (h : ¬ inMemory a = true) :
    writeCell s a v = .next (faultEntry s (.addressOutOfRange a)) := if_neg h

/-! ## The status of a fault -/

@[simp] theorem FaultReason.code_pcOutOfRange (a : Word) : (FaultReason.pcOutOfRange a).code = 1 := rfl
@[simp] theorem FaultReason.code_unrecognizedInstruction (iw : Word) :
    (FaultReason.unrecognizedInstruction iw).code = 2 := rfl
@[simp] theorem FaultReason.code_divideByZero : FaultReason.divideByZero.code = 3 := rfl
@[simp] theorem FaultReason.code_addressOutOfRange (a : Word) : (FaultReason.addressOutOfRange a).code = 4 := rfl

/-- The code and the `info` together determine the fault, so the status shows all of it. -/
theorem FaultReason.eq_of_status {r q : FaultReason} (hc : r.code = q.code) (hi : r.info = q.info) : r = q := by
  cases r <;> cases q <;> simp_all [FaultReason.code, FaultReason.info]

/-- Taking a fault shows its code, the address of the instruction and its `info` on the status interface. -/
theorem faultEntry_status (s : State) (r : FaultReason) :
    (faultEntry s r).run.faultStatus = some (r.code, s.pc, r.info) := rfl

/-! ## What a next state can be -/

theorem readCell_next {s t : State} {a : Word} {k : Word → Result} (h : readCell s a k = .next t) :
    (inMemory a = true ∧ k (Memory.read s.mem a.toNat) = .next t) ∨
    (¬ inMemory a = true ∧ t = faultEntry s (.addressOutOfRange a)) := by
  by_cases ha : inMemory a = true
  · exact .inl ⟨ha, readCell_inside k ha ▸ h⟩
  · rw [readCell_outside k ha] at h
    exact .inr ⟨ha, (Host.Outcome.next.inj h).symm⟩

theorem readTop_next {s t : State} {k : Word → Result} (h : readTop s k = .next t) :
    (inMemory (s.reg .sp) = true ∧ k (Memory.read s.mem (s.reg .sp).toNat) = .next t) ∨
    (¬ inMemory (s.reg .sp) = true ∧ t = faultEntry s (.addressOutOfRange (s.reg .sp))) := readCell_next h

theorem writeCell_next {s t : State} {a v : Word} (h : writeCell s a v = .next t) :
    (inMemory a = true ∧ t = (s.setMem (Memory.write s.mem a.toNat v)).setPc (npc s)) ∨
    (¬ inMemory a = true ∧ t = faultEntry s (.addressOutOfRange a)) := by
  by_cases ha : inMemory a = true
  · rw [writeCell_inside v ha] at h
    exact .inl ⟨ha, (Host.Outcome.next.inj h).symm⟩
  · rw [writeCell_outside v ha] at h
    exact .inr ⟨ha, (Host.Outcome.next.inj h).symm⟩

theorem branch_next {s t : State} {taken : Bool} {immed : BitVec 16} (h : branch s taken immed = .next t) :
    t = s.setPc (if taken then branchTarget s immed else npc s) := by
  cases taken <;> exact (Host.Outcome.next.inj h).symm

theorem topBinary_next {s t : State} {f : CompFields} {op : Word → Word → Word} (h : topBinary s f op = .next t) :
    (∃ a, ¬ inMemory a = true ∧ t = faultEntry s (.addressOutOfRange a)) ∨
    (inMemory (s.reg .sp) = true ∧ inMemory (ea s f.rs f.os) = true ∧ inMemory (ea s f.rt f.ot) = true ∧
      t = (s.setMem (Memory.write s.mem (ea s f.rt f.ot).toNat
        (op (Memory.read s.mem (s.reg .sp).toNat) (Memory.read s.mem (ea s f.rs f.os).toNat)))).setPc (npc s)) := by
  rcases readTop_next h with ⟨h1, h⟩ | ⟨h1, rfl⟩
  · rcases readCell_next h with ⟨h2, h⟩ | ⟨h2, rfl⟩
    · rcases writeCell_next h with ⟨h3, rfl⟩ | ⟨h3, rfl⟩
      · exact .inr ⟨h1, h2, h3, rfl⟩
      · exact .inl ⟨_, h3, rfl⟩
    · exact .inl ⟨_, h2, rfl⟩
  · exact .inl ⟨_, h1, rfl⟩

theorem updateCell_next {s t : State} {f : ImmFields} {op : Word → Word} (h : updateCell s f op = .next t) :
    (∃ a, ¬ inMemory a = true ∧ t = faultEntry s (.addressOutOfRange a)) ∨
    (inMemory (ea s f.reg f.offset) = true ∧
      t = (s.setMem (Memory.write s.mem (ea s f.reg f.offset).toNat
        (op (Memory.read s.mem (ea s f.reg f.offset).toNat)))).setPc (npc s)) := by
  rcases readCell_next h with ⟨h1, h⟩ | ⟨h1, rfl⟩
  · rcases writeCell_next h with ⟨-, rfl⟩ | ⟨h2, -⟩
    · exact .inr ⟨h1, rfl⟩
    · exact absurd h1 h2
  · exact .inl ⟨_, h1, rfl⟩

theorem branchOnCell_next {s t : State} {f : ImmFields} {test : Word → Bool}
    (h : branchOnCell s f test = .next t) :
    (∃ a, ¬ inMemory a = true ∧ t = faultEntry s (.addressOutOfRange a)) ∨ (∃ v, t = s.setPc v) := by
  rcases readCell_next h with ⟨-, h⟩ | ⟨h1, rfl⟩
  · exact .inr ⟨_, branch_next h⟩
  · exact .inl ⟨_, h1, rfl⟩

theorem execDiv_next {s t : State} {f : OthcFields} (h : execDiv f s = .next t) :
    (∃ a, ¬ inMemory a = true ∧ t = faultEntry s (.addressOutOfRange a)) ∨ t = faultEntry s .divideByZero ∨
    (∃ hi lo, t = (s.setHiLo hi lo).setPc (npc s)) := by
  rcases readTop_next h with ⟨-, h⟩ | ⟨h1, rfl⟩
  · rcases readCell_next h with ⟨-, h⟩ | ⟨h2, rfl⟩
    · split at h
      · exact .inr (.inl (Host.Outcome.next.inj h).symm)
      · exact .inr (.inr ⟨_, _, (Host.Outcome.next.inj h).symm⟩)
    · exact .inl ⟨_, h2, rfl⟩
  · exact .inl ⟨_, h1, rfl⟩

theorem execMul_next {s t : State} {f : OthcFields} (h : execMul f s = .next t) :
    (∃ a, ¬ inMemory a = true ∧ t = faultEntry s (.addressOutOfRange a)) ∨
    (∃ hi lo, t = (s.setHiLo hi lo).setPc (npc s)) := by
  rcases readTop_next h with ⟨-, h⟩ | ⟨h1, rfl⟩
  · rcases readCell_next h with ⟨-, h⟩ | ⟨h2, rfl⟩
    · exact .inr ⟨_, _, (Host.Outcome.next.inj h).symm⟩
    · exact .inl ⟨_, h2, rfl⟩
  · exact .inl ⟨_, h1, rfl⟩

theorem execRch_next {s t : State} {f : SysFields} (h : execRch f s = .next t) :
    (¬ inMemory (ea s f.reg f.offset) = true ∧ t = faultEntry s (.addressOutOfRange (ea s f.reg f.offset))) ∨
    (inMemory (ea s f.reg f.offset) = true ∧ ∃ c rest, nextChar s.input = some (c, rest) ∧
      t = ((((s.setInput rest).request .inChar).setMem
        (Memory.write s.mem (ea s f.reg f.offset).toNat c)).setPc (npc s))) := by
  unfold execRch at h
  split at h
  · rename_i ha
    split at h
    · rename_i c rest hc
      rw [writeCell_inside c ha] at h
      exact .inr ⟨ha, c, rest, hc, (Host.Outcome.next.inj h).symm⟩
    · cases h
  · rename_i ha
    exact .inl ⟨ha, (Host.Outcome.next.inj h).symm⟩

/-- An answered `Env.InChar` takes at most the next answer, and gives a word of 0 to 255 or the end-of-input word. -/
theorem nextChar_some {l rest : List CharAnswer} {c : Word} (h : nextChar l = some (c, rest)) :
    rest = l.tail ∧ (c.toNat ≤ 255 ∨ c = endOfInputWord) := by
  unfold nextChar at h
  split at h
  · injection h with h
    injection h with h1 h2
    exact ⟨h2.symm, .inr h1.symm⟩
  · rename_i b _
    injection h with h
    injection h with h1 h2
    refine ⟨h2.symm, .inl ?_⟩
    rw [← h1, BitVec.toNat_setWidth]
    have := b.isLt
    omega
  · injection h with h
    injection h with h1 h2
    exact ⟨h2.symm, .inr h1.symm⟩
  · cases h

/-! ## Strings -/

/-- A scan that fails leaves the array, at the address just past the words it was given. -/
theorem scanString_error {m : Memory} {l : StrLayout} {n p q : Nat} (h : scanString m l n p = .error q) :
    q = p + n := by
  induction n generalizing p with
  | zero =>
    injection h with h
    omega
  | succ n ih =>
    rw [scanString] at h
    split at h
    · cases h
    · split at h
      · cases h
      · rename_i heq
        injection h with h
        subst h
        have := ih heq
        omega

theorem strAt_error {s : State} {a : Word} {q : Nat} (h : strAt s a = .error q) :
    memorySize ≤ q ∧ q < 2 ^ 32 := by
  have hq := scanString_error h
  have ha := a.isLt
  constructor
  · omega
  · simp only [memorySize] at hq
    omega

theorem execPstr_next {s t : State} {f : SysFields} (h : execPstr f s = .next t) :
    (∃ a, ¬ inMemory a = true ∧ t = faultEntry s (.addressOutOfRange a)) ∨
    (∃ bytes, strAt s (ea s f.reg f.offset) = .ok bytes ∧ t = (s.request (.outStr bytes)).setPc (npc s)) := by
  unfold execPstr at h
  split at h
  · rename_i bytes hb
    exact .inr ⟨bytes, hb, (Host.Outcome.next.inj h).symm⟩
  · rename_i q hq
    obtain ⟨h1, h2⟩ := strAt_error hq
    refine .inl ⟨BitVec.ofNat 32 q, ?_, (Host.Outcome.next.inj h).symm⟩
    rw [inMemory_iff, BitVec.toNat_ofNat, Nat.mod_eq_of_lt h2]
    omega

/-! ## The step -/

/-- Everything a step that answers a next state can be: an instruction executed in the running core, or a fault before
execution. -/
theorem step_next {s t : State} (h : step s = .next t) :
    s.run = .running ∧
    ((∃ iw i, fetchDecode s = .ok (iw, i) ∧ exec i (traced s iw i) = .next t) ∨
     (∃ r, fetchDecode s = .error r ∧ t = faultEntry s r)) := by
  unfold step at h
  split at h
  · rename_i hr
    refine ⟨hr, ?_⟩
    split at h
    · rename_i iw i hf
      exact .inl ⟨iw, i, hf, h⟩
    · rename_i r hf
      exact .inr ⟨r, hf, (Host.Outcome.next.inj h).symm⟩
  · cases h
  · cases h

/-- What a successful fetch says. -/
theorem fetchDecode_ok {s : State} {iw : Word} {i : Instr} (h : fetchDecode s = .ok (iw, i)) :
    inText s.cfg s.pc = true ∧ inMemory s.pc = true ∧ iw = Memory.read s.mem s.pc.toNat ∧ decode iw = .insn i := by
  unfold fetchDecode at h
  split at h
  · split at h
    · split at h
      · injection h with h
        injection h with h1 h2
        subst h1 h2
        exact ⟨‹_›, ‹_›, rfl, ‹_›⟩
      · cases h
    · cases h
  · cases h

/-! ## The trace step -/

@[simp] theorem traced_regs (s : State) (w : Word) (i : Instr) : (traced s w i).regs = s.regs := by unfold traced; split <;> rfl
@[simp] theorem traced_reg (s : State) (w : Word) (i : Instr) (r : Reg) : (traced s w i).reg r = s.reg r := by unfold traced; split <;> rfl
@[simp] theorem traced_pc (s : State) (w : Word) (i : Instr) : (traced s w i).pc = s.pc := by unfold traced; split <;> rfl
@[simp] theorem traced_hi (s : State) (w : Word) (i : Instr) : (traced s w i).hi = s.hi := by unfold traced; split <;> rfl
@[simp] theorem traced_lo (s : State) (w : Word) (i : Instr) : (traced s w i).lo = s.lo := by unfold traced; split <;> rfl
@[simp] theorem traced_mem (s : State) (w : Word) (i : Instr) : (traced s w i).mem = s.mem := by unfold traced; split <;> rfl
@[simp] theorem traced_tracing (s : State) (w : Word) (i : Instr) : (traced s w i).tracing = s.tracing := by unfold traced; split <;> rfl
@[simp] theorem traced_run (s : State) (w : Word) (i : Instr) : (traced s w i).run = s.run := by unfold traced; split <;> rfl
@[simp] theorem traced_cfg (s : State) (w : Word) (i : Instr) : (traced s w i).cfg = s.cfg := by unfold traced; split <;> rfl
@[simp] theorem traced_strLayout (s : State) (w : Word) (i : Instr) : (traced s w i).strLayout = s.strLayout := by unfold traced; split <;> rfl
@[simp] theorem traced_input (s : State) (w : Word) (i : Instr) : (traced s w i).input = s.input := by unfold traced; split <;> rfl
@[simp] theorem traced_requests (s : State) (w : Word) (i : Instr) : (traced s w i).requests = s.requests := by unfold traced; split <;> rfl
theorem traced_trace (s : State) (w : Word) (i : Instr) :
    (traced s w i).trace = if s.tracing then s.trace ++ [traceEvent s w i] else s.trace := by unfold traced; split <;> rfl

end Sys2Proof.Machine
end

