-- ==== Sys2Proof/Laws/Exec.lean ====
section
/-! SUPPORT. What executing an instruction can do, said once: every next state of `exec` is one of a few effects, each named
with the instructions that have it. -/

namespace Sys2Proof.Machine

/-- The address an instruction stores to, if it is one that stores. -/
def storeTarget (i : Instr) (s : State) : Option Word :=
  match i with
  | .add f | .sub f | .cpw f | .and f | .bor f | .nor f | .xor f | .swr f | .sca f | .neg f => some (ea s f.rt f.ot)
  | .lit f | .cfhi f | .cflo f | .sll f | .srl f => some (ea s f.reg f.offset)
  | .addi f | .andi f | .bori f | .nori f | .xori f => some (ea s f.reg f.offset)
  | _ => none

/-- The effects an executed instruction can have. -/
inductive Effect (i : Instr) (s : State) : State → Prop where
  | fault (r : FaultReason) (h : mayRaise i r) : Effect i s (faultEntry s r)
  | store (a v : Word) (h : storeTarget i s = some a) (ha : inMemory a = true) (hp : isTransfer i = false) :
      Effect i s ((s.setMem (Memory.write s.mem a.toNat v)).setPc (npc s))
  | register (r : Reg) (v target : Word) (h : regTarget i = some r) (hp : isTransfer i = true ∨ target = npc s) :
      Effect i s ((s.setReg r v).setPc target)
  | hiLo (hi lo : Word) (h : (∃ f, i = .mul f) ∨ ∃ f, i = .div f) : Effect i s ((s.setHiLo hi lo).setPc (npc s))
  | jump (target : Word) (hp : isTransfer i = true) : Effect i s (s.setPc target)
  | nop (h : ∃ f, i = .nop f) : Effect i s (s.setPc (npc s))
  | output (q : EnvRequest) (h : mayRequest i q) (hq : ∀ n, q ≠ .exit n) (hp : isTransfer i = false)
      (hi : (∃ f, i = .pstr f) ∨ (∃ f, i = .pint f) ∨ ∃ f, i = .pch f) :
      Effect i s ((s.request q).setPc (npc s))
  | exit (f : SysFields) (h : i = .exit f) :
      Effect i s (((s.setRun (.halted (sext9 f.offset))).request (.exit (sext9 f.offset).toInt)).setPc (npc s))
  | input (f : SysFields) (c : Word) (rest : List CharAnswer) (h : i = .rch f)
      (hc : nextChar s.input = some (c, rest)) (ha : inMemory (ea s f.reg f.offset) = true) :
      Effect i s ((((s.setInput rest).request .inChar).setMem
        (Memory.write s.mem (ea s f.reg f.offset).toNat c)).setPc (npc s))
  | tracing (b : Bool) (h : (∃ f, i = .stra f) ∨ ∃ f, i = .notr f) : Effect i s ((s.setTracing b).setPc (npc s))

theorem Effect.of_topBinary {i : Instr} {s t : State} {f : CompFields} {op : Word → Word → Word}
    (h : topBinary s f op = .next t) (hr : accessesMemory i = true)
    (hs : storeTarget i s = some (ea s f.rt f.ot)) (hp : isTransfer i = false) : Effect i s t := by
  rcases topBinary_next h with ⟨a, ha, rfl⟩ | ⟨-, -, ha, rfl⟩
  · exact .fault _ ⟨hr, Bool.eq_false_iff.mpr ha⟩
  · exact .store _ _ hs ha hp

theorem Effect.of_updateCell {i : Instr} {s t : State} {f : ImmFields} {op : Word → Word}
    (h : updateCell s f op = .next t) (hr : accessesMemory i = true)
    (hs : storeTarget i s = some (ea s f.reg f.offset)) (hp : isTransfer i = false) : Effect i s t := by
  rcases updateCell_next h with ⟨a, ha, rfl⟩ | ⟨ha, rfl⟩
  · exact .fault _ ⟨hr, Bool.eq_false_iff.mpr ha⟩
  · exact .store _ _ hs ha hp

theorem Effect.of_branchOnCell {i : Instr} {s t : State} {f : ImmFields} {test : Word → Bool}
    (h : branchOnCell s f test = .next t) (hr : accessesMemory i = true)
    (hp : isTransfer i = true) : Effect i s t := by
  rcases branchOnCell_next h with ⟨a, ha, rfl⟩ | ⟨v, rfl⟩
  · exact .fault _ ⟨hr, Bool.eq_false_iff.mpr ha⟩
  · exact .jump _ hp

theorem Effect.of_writeCell {i : Instr} {s t : State} {a v : Word} (h : writeCell s a v = .next t)
    (hr : accessesMemory i = true) (hs : storeTarget i s = some a)
    (hp : isTransfer i = false) : Effect i s t := by
  rcases writeCell_next h with ⟨ha, rfl⟩ | ⟨ha, rfl⟩
  · exact .store _ _ hs ha hp
  · exact .fault _ ⟨hr, Bool.eq_false_iff.mpr ha⟩

/-- A read that an instruction begins with either faults or hands its word on. -/
theorem Effect.of_readCell {i : Instr} {s t : State} {a : Word} {k : Word → Result} (h : readCell s a k = .next t)
    (hr : accessesMemory i = true)
    (hk : ∀ v, k v = .next t → Effect i s t) : Effect i s t := by
  rcases readCell_next h with ⟨-, h⟩ | ⟨ha, rfl⟩
  · exact hk _ h
  · exact .fault _ ⟨hr, Bool.eq_false_iff.mpr ha⟩

theorem Effect.of_readTop {i : Instr} {s t : State} {k : Word → Result} (h : readTop s k = .next t)
    (hr : accessesMemory i = true) (hk : ∀ v, k v = .next t → Effect i s t) : Effect i s t :=
  .of_readCell h hr hk

theorem next_inj {s t : State} (h : (.next s : Result) = .next t) : t = s := (Host.Outcome.next.inj h).symm

/-- Everything a next state of an executed instruction can be. -/
theorem exec_next {i : Instr} {s t : State} (h : exec i s = .next t) : Effect i s t := by
  cases i <;> simp only [exec] at h
  case nop f => obtain rfl := next_inj h; exact .nop ⟨f, rfl⟩
  case add f => exact .of_topBinary h rfl rfl rfl
  case sub f => exact .of_topBinary h rfl rfl rfl
  case cpw f =>
    exact .of_readCell h rfl fun _ h =>
      .of_writeCell h rfl rfl rfl
  case cpr f => obtain rfl := next_inj h; exact .register _ _ _ rfl (.inr rfl)
  case and f => exact .of_topBinary h rfl rfl rfl
  case bor f => exact .of_topBinary h rfl rfl rfl
  case nor f => exact .of_topBinary h rfl rfl rfl
  case xor f => exact .of_topBinary h rfl rfl rfl
  case lwr f =>
    refine .of_readCell h rfl fun _ h => ?_
    obtain rfl := next_inj h
    exact .register _ _ _ rfl (.inr rfl)
  case swr f => exact .of_writeCell h rfl rfl rfl
  case sca f => exact .of_writeCell h rfl rfl rfl
  case neg f =>
    exact .of_readCell h rfl fun _ h =>
      .of_writeCell h rfl rfl rfl
  case lit f => exact .of_writeCell h rfl rfl rfl
  case ari f => obtain rfl := next_inj h; exact .register _ _ _ rfl (.inr rfl)
  case sri f => obtain rfl := next_inj h; exact .register _ _ _ rfl (.inr rfl)
  case mul f =>
    rcases execMul_next h with ⟨a, ha, rfl⟩ | ⟨hi, lo, rfl⟩
    · exact .fault _ ⟨rfl, Bool.eq_false_iff.mpr ha⟩
    · exact .hiLo _ _ (.inl ⟨f, rfl⟩)
  case div f =>
    rcases execDiv_next h with ⟨a, ha, rfl⟩ | rfl | ⟨hi, lo, rfl⟩
    · exact .fault _ ⟨rfl, Bool.eq_false_iff.mpr ha⟩
    · exact .fault _ ⟨f, rfl⟩
    · exact .hiLo _ _ (.inr ⟨f, rfl⟩)
  case cfhi f => exact .of_writeCell h rfl rfl rfl
  case cflo f => exact .of_writeCell h rfl rfl rfl
  case sll f =>
    exact .of_readTop h rfl fun _ h =>
      .of_writeCell h rfl rfl rfl
  case srl f =>
    exact .of_readTop h rfl fun _ h =>
      .of_writeCell h rfl rfl rfl
  case jmp f =>
    refine .of_readCell h rfl fun _ h => ?_
    obtain rfl := next_inj h
    exact .jump _ rfl
  case csi f =>
    refine .of_readCell h rfl fun _ h => ?_
    obtain rfl := next_inj h
    exact .register _ _ _ rfl (.inl rfl)
  case jrel f => obtain rfl := next_inj h; exact .jump _ rfl
  case addi f => exact .of_updateCell h rfl rfl rfl
  case andi f => exact .of_updateCell h rfl rfl rfl
  case bori f => exact .of_updateCell h rfl rfl rfl
  case nori f => exact .of_updateCell h rfl rfl rfl
  case xori f => exact .of_updateCell h rfl rfl rfl
  case beq f =>
    refine .of_readTop h rfl fun _ h => ?_
    refine .of_readCell h rfl fun _ h => ?_
    obtain rfl := branch_next h
    exact .jump _ rfl
  case bne f =>
    refine .of_readTop h rfl fun _ h => ?_
    refine .of_readCell h rfl fun _ h => ?_
    obtain rfl := branch_next h
    exact .jump _ rfl
  case bgez f => exact .of_branchOnCell h rfl rfl
  case bgtz f => exact .of_branchOnCell h rfl rfl
  case blez f => exact .of_branchOnCell h rfl rfl
  case bltz f => exact .of_branchOnCell h rfl rfl
  case jmpa f => obtain rfl := next_inj h; exact .jump _ rfl
  case call f => obtain rfl := next_inj h; exact .register _ _ _ rfl (.inl rfl)
  case rtn f => obtain rfl := next_inj h; exact .jump _ rfl
  case exit f => obtain rfl := next_inj h; exact .exit f rfl
  case pstr f =>
    rcases execPstr_next h with ⟨a, ha, rfl⟩ | ⟨bytes, -, rfl⟩
    · exact .fault _ ⟨rfl, Bool.eq_false_iff.mpr ha⟩
    · exact .output _ ⟨f, rfl⟩ (by simp) rfl (.inl ⟨f, rfl⟩)
  case pint f =>
    refine .of_readCell h rfl fun _ h => ?_
    obtain rfl := next_inj h
    exact .output _ ⟨f, rfl⟩ (by simp) rfl (.inr (.inl ⟨f, rfl⟩))
  case pch f =>
    refine .of_readCell h rfl fun _ h => ?_
    obtain rfl := next_inj h
    exact .output _ ⟨f, rfl⟩ (by simp) rfl (.inr (.inr ⟨f, rfl⟩))
  case rch f =>
    rcases execRch_next h with ⟨ha, rfl⟩ | ⟨ha, c, rest, hc, rfl⟩
    · exact .fault _ ⟨rfl, Bool.eq_false_iff.mpr ha⟩
    · exact .input f c rest rfl hc ha
  case stra f => obtain rfl := next_inj h; exact .tracing _ (.inl ⟨f, rfl⟩)
  case notr f => obtain rfl := next_inj h; exact .tracing _ (.inr ⟨f, rfl⟩)

end Sys2Proof.Machine
end

