-- ==== Sys2Proof/Laws/PerInstr.lean ====
section
/-! SUPPORT. The facts proved instruction by instruction. Family MatchesRow: the word an instruction is encoded as agrees with
the instruction's row of spec/opcode_table.json in every bit the row fixes. -/

namespace Sys2Proof.Laws.MatchesRow

/-- The encoded word, masked by the row's mask, is the row's match. -/
def Statement (i : Instr) : Prop := encode i &&& i.tableRow.2 = i.tableRow.1

theorem and_ones4 (x : BitVec 4) : x &&& 0xF#4 = x := BitVec.and_allOnes

theorem and_ones12 (x : BitVec 12) : x &&& 0xFFF#12 = x := BitVec.and_allOnes

/-- The mask of an immediate or jump row keeps the outer opcode alone. -/
theorem mask_op (w : Word) : w &&& 0xF0000000#32 = opField w ++ 0#28 := by
  have hw : w.extractLsb' 28 4 ++ w.extractLsb' 0 28 = w := (slice_join w 0 4 28).trans BitVec.extractLsb'_eq_self
  have h : (w.extractLsb' 28 4 ++ w.extractLsb' 0 28) &&& (0xF#4 ++ 0#28) = w.extractLsb' 28 4 ++ 0#28 := by
    rw [BitVec.and_append, BitVec.and_zero, and_ones4]
  exact (congrArg (· &&& 0xF0000000#32) hw.symm).trans h

/-- The mask of a computational or other-computational row keeps the outer opcode and the function code. -/
theorem mask_func (w : Word) : w &&& 0xF000000F#32 = opField w ++ 0#24 ++ funcField w := by
  have hw : w.extractLsb' 28 4 ++ w.extractLsb' 4 24 ++ w.extractLsb' 0 4 = w := by
    rw [slice_join w 4 4 24, slice_join w 0 28 4]
    exact BitVec.extractLsb'_eq_self
  have h : (w.extractLsb' 28 4 ++ w.extractLsb' 4 24 ++ w.extractLsb' 0 4) &&& (0xF#4 ++ 0#24 ++ 0xF#4)
      = w.extractLsb' 28 4 ++ 0#24 ++ w.extractLsb' 0 4 := by
    rw [BitVec.and_append, BitVec.and_append, BitVec.and_zero, and_ones4, and_ones4]
  exact (congrArg (· &&& 0xF000000F#32) hw.symm).trans h

/-- The mask of a system-call row keeps the outer opcode, the syscall code and the function code. -/
theorem mask_code (w : Word) : w &&& 0xF000FFFF#32 = opField w ++ 0#12 ++ codeField w ++ funcField w := by
  have hw : w.extractLsb' 28 4 ++ w.extractLsb' 16 12 ++ w.extractLsb' 4 12 ++ w.extractLsb' 0 4 = w := by
    rw [slice_join w 16 4 12, slice_join w 4 16 12, slice_join w 0 28 4]
    exact BitVec.extractLsb'_eq_self
  have h : (w.extractLsb' 28 4 ++ w.extractLsb' 16 12 ++ w.extractLsb' 4 12 ++ w.extractLsb' 0 4)
        &&& (0xF#4 ++ 0#12 ++ 0xFFF#12 ++ 0xF#4)
      = w.extractLsb' 28 4 ++ 0#12 ++ w.extractLsb' 4 12 ++ w.extractLsb' 0 4 := by
    rw [BitVec.and_append, BitVec.and_append, BitVec.and_append, BitVec.and_zero, and_ones4, and_ones4, and_ones12]
  exact (congrArg (· &&& 0xF000FFFF#32) hw.symm).trans h

theorem nop (f : CompFields) : Statement (.nop f) := by
  simp only [Statement, encode, Instr.tableRow, mask_func, opField_compWord, funcField_compWord]
  decide

theorem add (f : CompFields) : Statement (.add f) := by
  simp only [Statement, encode, Instr.tableRow, mask_func, opField_compWord, funcField_compWord]
  decide

theorem sub (f : CompFields) : Statement (.sub f) := by
  simp only [Statement, encode, Instr.tableRow, mask_func, opField_compWord, funcField_compWord]
  decide

theorem cpw (f : CompFields) : Statement (.cpw f) := by
  simp only [Statement, encode, Instr.tableRow, mask_func, opField_compWord, funcField_compWord]
  decide

theorem cpr (f : CompFields) : Statement (.cpr f) := by
  simp only [Statement, encode, Instr.tableRow, mask_func, opField_compWord, funcField_compWord]
  decide

theorem and (f : CompFields) : Statement (.and f) := by
  simp only [Statement, encode, Instr.tableRow, mask_func, opField_compWord, funcField_compWord]
  decide

theorem bor (f : CompFields) : Statement (.bor f) := by
  simp only [Statement, encode, Instr.tableRow, mask_func, opField_compWord, funcField_compWord]
  decide

theorem nor (f : CompFields) : Statement (.nor f) := by
  simp only [Statement, encode, Instr.tableRow, mask_func, opField_compWord, funcField_compWord]
  decide

theorem xor (f : CompFields) : Statement (.xor f) := by
  simp only [Statement, encode, Instr.tableRow, mask_func, opField_compWord, funcField_compWord]
  decide

theorem lwr (f : CompFields) : Statement (.lwr f) := by
  simp only [Statement, encode, Instr.tableRow, mask_func, opField_compWord, funcField_compWord]
  decide

theorem swr (f : CompFields) : Statement (.swr f) := by
  simp only [Statement, encode, Instr.tableRow, mask_func, opField_compWord, funcField_compWord]
  decide

theorem sca (f : CompFields) : Statement (.sca f) := by
  simp only [Statement, encode, Instr.tableRow, mask_func, opField_compWord, funcField_compWord]
  decide

theorem neg (f : CompFields) : Statement (.neg f) := by
  simp only [Statement, encode, Instr.tableRow, mask_func, opField_compWord, funcField_compWord]
  decide

theorem lit (f : OthcFields) : Statement (.lit f) := by
  simp only [Statement, encode, Instr.tableRow, mask_func, opField_othcWord, funcField_othcWord]
  decide

theorem ari (f : OthcFields) : Statement (.ari f) := by
  simp only [Statement, encode, Instr.tableRow, mask_func, opField_othcWord, funcField_othcWord]
  decide

theorem sri (f : OthcFields) : Statement (.sri f) := by
  simp only [Statement, encode, Instr.tableRow, mask_func, opField_othcWord, funcField_othcWord]
  decide

theorem mul (f : OthcFields) : Statement (.mul f) := by
  simp only [Statement, encode, Instr.tableRow, mask_func, opField_othcWord, funcField_othcWord]
  decide

theorem div (f : OthcFields) : Statement (.div f) := by
  simp only [Statement, encode, Instr.tableRow, mask_func, opField_othcWord, funcField_othcWord]
  decide

theorem cfhi (f : OthcFields) : Statement (.cfhi f) := by
  simp only [Statement, encode, Instr.tableRow, mask_func, opField_othcWord, funcField_othcWord]
  decide

theorem cflo (f : OthcFields) : Statement (.cflo f) := by
  simp only [Statement, encode, Instr.tableRow, mask_func, opField_othcWord, funcField_othcWord]
  decide

theorem sll (f : OthcFields) : Statement (.sll f) := by
  simp only [Statement, encode, Instr.tableRow, mask_func, opField_othcWord, funcField_othcWord]
  decide

theorem srl (f : OthcFields) : Statement (.srl f) := by
  simp only [Statement, encode, Instr.tableRow, mask_func, opField_othcWord, funcField_othcWord]
  decide

theorem jmp (f : OthcFields) : Statement (.jmp f) := by
  simp only [Statement, encode, Instr.tableRow, mask_func, opField_othcWord, funcField_othcWord]
  decide

theorem csi (f : OthcFields) : Statement (.csi f) := by
  simp only [Statement, encode, Instr.tableRow, mask_func, opField_othcWord, funcField_othcWord]
  decide

theorem jrel (f : OthcFields) : Statement (.jrel f) := by
  simp only [Statement, encode, Instr.tableRow, mask_func, opField_othcWord, funcField_othcWord]
  decide

theorem addi (f : ImmFields) : Statement (.addi f) := by
  simp only [Statement, encode, Instr.tableRow, mask_op, opField_immWord]
  decide

theorem andi (f : ImmFields) : Statement (.andi f) := by
  simp only [Statement, encode, Instr.tableRow, mask_op, opField_immWord]
  decide

theorem bori (f : ImmFields) : Statement (.bori f) := by
  simp only [Statement, encode, Instr.tableRow, mask_op, opField_immWord]
  decide

theorem nori (f : ImmFields) : Statement (.nori f) := by
  simp only [Statement, encode, Instr.tableRow, mask_op, opField_immWord]
  decide

theorem xori (f : ImmFields) : Statement (.xori f) := by
  simp only [Statement, encode, Instr.tableRow, mask_op, opField_immWord]
  decide

theorem beq (f : ImmFields) : Statement (.beq f) := by
  simp only [Statement, encode, Instr.tableRow, mask_op, opField_immWord]
  decide

theorem bgez (f : ImmFields) : Statement (.bgez f) := by
  simp only [Statement, encode, Instr.tableRow, mask_op, opField_immWord]
  decide

theorem bgtz (f : ImmFields) : Statement (.bgtz f) := by
  simp only [Statement, encode, Instr.tableRow, mask_op, opField_immWord]
  decide

theorem blez (f : ImmFields) : Statement (.blez f) := by
  simp only [Statement, encode, Instr.tableRow, mask_op, opField_immWord]
  decide

theorem bltz (f : ImmFields) : Statement (.bltz f) := by
  simp only [Statement, encode, Instr.tableRow, mask_op, opField_immWord]
  decide

theorem bne (f : ImmFields) : Statement (.bne f) := by
  simp only [Statement, encode, Instr.tableRow, mask_op, opField_immWord]
  decide

theorem jmpa (f : JumpFields) : Statement (.jmpa f) := by
  simp only [Statement, encode, Instr.tableRow, mask_op, opField_jumpWord]
  decide

theorem call (f : JumpFields) : Statement (.call f) := by
  simp only [Statement, encode, Instr.tableRow, mask_op, opField_jumpWord]
  decide

theorem rtn (f : JumpFields) : Statement (.rtn f) := by
  simp only [Statement, encode, Instr.tableRow, mask_op, opField_jumpWord]
  decide

theorem exit (f : SysFields) : Statement (.exit f) := by
  simp only [Statement, encode, Instr.tableRow, mask_code, opField_sysWord, codeField_sysWord, funcField_sysWord]
  decide

theorem pstr (f : SysFields) : Statement (.pstr f) := by
  simp only [Statement, encode, Instr.tableRow, mask_code, opField_sysWord, codeField_sysWord, funcField_sysWord]
  decide

theorem pint (f : SysFields) : Statement (.pint f) := by
  simp only [Statement, encode, Instr.tableRow, mask_code, opField_sysWord, codeField_sysWord, funcField_sysWord]
  decide

theorem pch (f : SysFields) : Statement (.pch f) := by
  simp only [Statement, encode, Instr.tableRow, mask_code, opField_sysWord, codeField_sysWord, funcField_sysWord]
  decide

theorem rch (f : SysFields) : Statement (.rch f) := by
  simp only [Statement, encode, Instr.tableRow, mask_code, opField_sysWord, codeField_sysWord, funcField_sysWord]
  decide

theorem stra (f : SysFields) : Statement (.stra f) := by
  simp only [Statement, encode, Instr.tableRow, mask_code, opField_sysWord, codeField_sysWord, funcField_sysWord]
  decide

theorem notr (f : SysFields) : Statement (.notr f) := by
  simp only [Statement, encode, Instr.tableRow, mask_code, opField_sysWord, codeField_sysWord, funcField_sysWord]
  decide

end Sys2Proof.Laws.MatchesRow
end

