-- ==== Sys2Proof/Tests/Slice0.lean ====
section
/-! SUPPORT. Tests of the model against the words and vectors of spec/95_test_vectors.md, whose names stand in the docstrings,
and the witnesses that the hypotheses of the statements can be met. -/

namespace Sys2Proof.Tests.Slice0

open Sys2Proof Sys2Proof.Machine

/-! ## Well-formedness -/

/-- A word with a row is no unrecognized word (R84). -/
theorem test_wellFormed_refuses_recognized_word : (Decoded.unrecognized 0x00000000#32).wellFormed = false := by decide

/-- The words of V-UN1 to V-UN9. -/
def unassignedWords : List Word :=
  [0x0000000C#32, 0x0000000E#32, 0x0000000F#32, 0x10000000#32, 0x1000000D#32, 0x1000000E#32, 0x1000000F#32,
    0x1000006F#32, 0x10007FDF#32]

theorem test_wellFormed_accepts_unassigned_words :
    unassignedWords.all (fun w => (Decoded.unrecognized w).wellFormed) = true := by decide

theorem test_unassigned_words_decode :
    unassignedWords.all (fun w => decode w = .unrecognized w) = true := by decide

/-- One instruction for each arm of the check of R87, with an unused field that is not 0. -/
theorem test_unusedFieldsZero_refuses :
    ∀ i ∈ ([.nop ⟨.gp, 0, .gp, 1⟩, .nop ⟨.gp, 0, .sp, 0⟩, .nop ⟨.gp, 1, .gp, 0⟩, .nop ⟨.sp, 0, .gp, 0⟩,
      .cpr ⟨.sp, 1, .fp, 0⟩, .cpr ⟨.sp, 0, .fp, 1⟩, .lwr ⟨.sp, 1, .fp, 0⟩, .swr ⟨.sp, 0, .fp, 1⟩,
      .ari ⟨.sp, 1, 0⟩, .sri ⟨.sp, 1, 0⟩, .mul ⟨.sp, 0, 1⟩, .div ⟨.sp, 0, 1⟩, .cfhi ⟨.sp, 0, 1⟩, .cflo ⟨.sp, 0, 1⟩,
      .jmp ⟨.sp, 0, 1⟩, .csi ⟨.sp, 0, 1⟩, .jrel ⟨.sp, 0, 0⟩, .jrel ⟨.gp, 0, 1⟩, .rtn ⟨1⟩, .exit ⟨.sp, 0⟩,
      .stra ⟨.sp, 0⟩, .stra ⟨.gp, 1⟩, .notr ⟨.sp, 0⟩, .notr ⟨.gp, 1⟩] : List Instr),
    i.unusedFieldsZero = false := by decide

/-! ## Decoding: the words of the vectors, and the fields R71 gives them -/

theorem test_decode_computational :
    decode 0x0FFFFFF0#32 = .insn (.nop ⟨.ra, 0x1FF, .ra, 0x1FF⟩) ∧
    decode 0x01FF2001#32 = .insn (.add ⟨.gp, 0x1FF, .sp, 0⟩) ∧
    decode 0x02002012#32 = .insn (.sub ⟨.sp, 0, .sp, 1⟩) ∧
    decode 0x03FF2003#32 = .insn (.cpw ⟨.sp, 0x1FF, .sp, 0⟩) ∧
    decode 0x06002004#32 = .insn (.cpr ⟨.r3, 0, .sp, 0⟩) ∧
    decode 0x02002015#32 = .insn (.and ⟨.sp, 0, .sp, 1⟩) ∧
    decode 0x02002016#32 = .insn (.bor ⟨.sp, 0, .sp, 1⟩) ∧
    decode 0x02002017#32 = .insn (.nor ⟨.sp, 0, .sp, 1⟩) ∧
    decode 0x02002018#32 = .insn (.xor ⟨.sp, 0, .sp, 1⟩) ∧
    decode 0x0E003FF9#32 = .insn (.lwr ⟨.ra, 0, .sp, 0x1FF⟩) ∧
    decode 0x03FE600A#32 = .insn (.swr ⟨.sp, 0x1FE, .r3, 0⟩) ∧
    decode 0x02005FDB#32 = .insn (.sca ⟨.sp, 0, .fp, 0x1FD⟩) ∧
    decode 0x0200201D#32 = .insn (.neg ⟨.sp, 0, .sp, 1⟩) := by decide

theorem test_decode_otherComputational :
    decode 0x12008001#32 = .insn (.lit ⟨.sp, 0, 0x800⟩) ∧
    decode 0x1200FFF2#32 = .insn (.ari ⟨.sp, 0, 0xFFF⟩) ∧
    decode 0x16008003#32 = .insn (.sri ⟨.r3, 0, 0x800⟩) ∧
    decode 0x12010004#32 = .insn (.mul ⟨.sp, 1, 0⟩) ∧
    decode 0x10400005#32 = .insn (.div ⟨.gp, 64, 0⟩) ∧
    decode 0x13FF0006#32 = .insn (.cfhi ⟨.sp, 0x1FF, 0⟩) ∧
    decode 0x12000007#32 = .insn (.cflo ⟨.sp, 0, 0⟩) ∧
    decode 0x1201FFF8#32 = .insn (.sll ⟨.sp, 1, 0xFFF⟩) ∧
    decode 0x120101F9#32 = .insn (.srl ⟨.sp, 1, 31⟩) ∧
    decode 0x1200000A#32 = .insn (.jmp ⟨.sp, 0, 0⟩) ∧
    decode 0x1E00000B#32 = .insn (.csi ⟨.ra, 0, 0⟩) ∧
    decode 0x11FE000C#32 = .insn (.jrel ⟨.gp, 0x1FE, 0⟩) := by decide

theorem test_decode_immediate :
    decode 0x22008000#32 = .insn (.addi ⟨.sp, 0, 0x8000⟩) ∧
    decode 0x320000FF#32 = .insn (.andi ⟨.sp, 0, 0xFF⟩) ∧
    decode 0x42008000#32 = .insn (.bori ⟨.sp, 0, 0x8000⟩) ∧
    decode 0x5200FFFF#32 = .insn (.nori ⟨.sp, 0, 0xFFFF⟩) ∧
    decode 0x6200FFFF#32 = .insn (.xori ⟨.sp, 0, 0xFFFF⟩) ∧
    decode 0x72010003#32 = .insn (.beq ⟨.sp, 1, 3⟩) ∧
    decode 0x82000005#32 = .insn (.bgez ⟨.sp, 0, 5⟩) ∧
    decode 0x9040FFFD#32 = .insn (.bgtz ⟨.gp, 64, 0xFFFD⟩) ∧
    decode 0xA2000005#32 = .insn (.blez ⟨.sp, 0, 5⟩) ∧
    decode 0xB2000005#32 = .insn (.bltz ⟨.sp, 0, 5⟩) ∧
    decode 0xC201FFFC#32 = .insn (.bne ⟨.sp, 1, 0xFFFC⟩) := by decide

theorem test_decode_jump :
    decode 0xDFFFFFFF#32 = .insn (.jmpa ⟨0x0FFFFFFF⟩) ∧
    decode 0xE0000008#32 = .insn (.call ⟨8⟩) ∧
    decode 0xFFFFFFFF#32 = .insn (.rtn ⟨0x0FFFFFFF⟩) := by decide

theorem test_decode_systemCall :
    decode 0x11FF001F#32 = .insn (.exit ⟨.gp, 0x1FF⟩) ∧
    decode 0x1040002F#32 = .insn (.pstr ⟨.gp, 64⟩) ∧
    decode 0x1041003F#32 = .insn (.pint ⟨.gp, 65⟩) ∧
    decode 0x1200004F#32 = .insn (.pch ⟨.sp, 0⟩) ∧
    decode 0x11FF005F#32 = .insn (.rch ⟨.gp, 0x1FF⟩) ∧
    decode 0x10007FEF#32 = .insn (.stra ⟨.gp, 0⟩) ∧
    decode 0x1FFF7FFF#32 = .insn (.notr ⟨.ra, 0x1FF⟩) ∧
    decode 0x1FFFFFFF#32 = .unrecognized 0x1FFFFFFF#32 := by decide

/-! ## One step from the vector state -/

/-- Memory with the listed cells. -/
def cells (l : List WordCell) : Memory := l.foldl (fun m c => Memory.write m c.1 c.2) []

/-- The vector state of spec/95_test_vectors.md with the instruction word `iw` at address `a`. -/
def vector (a iw : Word) (l : List WordCell) : State where
  regs := { gp := 0, sp := 4096, fp := 4096, r3 := 0, r4 := 0, r5 := 0, r6 := 0, ra := 0 }
  pc := a
  hi := 0
  lo := 0
  mem := cells ((a.toNat, iw) :: l)
  tracing := false
  run := .running
  cfg := { textStart := 0, textLength := a + 1, dataStart := 1024, dataLength := 0, stackBottom := 4096 }
  strLayout := .packedLe
  input := []
  requests := []
  trace := []

/-- What a look at the state after one step shows, if the step has a next state. -/
def seen {α : Type} (s : State) (look : State → α) : Option α :=
  match step s with
  | .next t => some (look t)
  | .fault _ => none
  | .refused _ => none

/-- A look at one cell and the `pc`. -/
def cellPc (a : Nat) (t : State) : Word × Word := (Memory.read t.mem a, t.pc)

/-- A look at one register and the `pc`. -/
def regPc (r : Reg) (t : State) : Word × Word := (t.reg r, t.pc)

/-- A look at `HI` and `LO`. -/
def hiLo (t : State) : Word × Word := (t.hi, t.lo)

/-- V-NOP2. -/
theorem test_nop_ignores_unused_fields :
    step (vector 0 0x0FFFFFF0#32 []) = .next { vector 0 0x0FFFFFF0#32 [] with pc := 1 } := by rfl

/-- V-ADD1. -/
theorem test_add_wraps :
    seen (vector 0 0x02002011#32 [(4096, 0x7FFFFFFF#32), (4097, 1#32)]) (cellPc 4096) = some (0x80000000#32, 1#32) := by
  decide

/-- V-ADD3: nothing is written. -/
theorem test_add_target_fault :
    step (vector 0 0x01FF2001#32 []) =
      .next { vector 0 0x01FF2001#32 [] with run := .faulted (.addressOutOfRange 0xFFFFFFFF#32) 0 } := by rfl

/-- V-SUB1. -/
theorem test_sub_order :
    seen (vector 0 0x02002012#32 [(4096, 0x80000000#32), (4097, 1#32)]) (cellPc 4096) = some (0x7FFFFFFF#32, 1#32) := by
  decide

/-- V-CPW1. -/
theorem test_cpw_direction :
    seen (vector 0 0x03FF2003#32 [(4096, 42#32)]) (cellPc 4095) = some (42#32, 1#32) := by decide

/-- V-CPR2: register 0 is writable. -/
theorem test_cpr_register_zero : seen (vector 0 0x00002004#32 []) (regPc .gp) = some (4096#32, 1#32) := by decide

/-- V-AND1. -/
theorem test_and :
    seen (vector 0 0x02002015#32 [(4096, 0x0000FF0F#32), (4097, 0x00F0F0FF#32)]) (cellPc 4096)
      = some (0x0000F00F#32, 1#32) := by decide

/-- V-BOR1. -/
theorem test_bor :
    seen (vector 0 0x02002016#32 [(4096, 0x0000FF0F#32), (4097, 0x00F0F0FF#32)]) (cellPc 4096)
      = some (0x00F0FFFF#32, 1#32) := by decide

/-- V-NOR1. -/
theorem test_nor :
    seen (vector 0 0x02002017#32 [(4096, 0x0000FF0F#32), (4097, 0x00F0F0FF#32)]) (cellPc 4096)
      = some (0xFF0F0000#32, 1#32) := by decide

/-- V-XOR1. -/
theorem test_xor :
    seen (vector 0 0x02002018#32 [(4096, 0x0000FF0F#32), (4097, 0x00F0F0FF#32)]) (cellPc 4096)
      = some (0x00F00FF0#32, 1#32) := by decide

/-- V-LWR2: the address is from the old register. -/
theorem test_lwr_target_is_base : seen (vector 0 0x02002009#32 [(4096, 77#32)]) (regPc .sp) = some (77#32, 1#32) := by
  decide

/-- V-LWR3: a faulting load leaves the register alone. -/
theorem test_lwr_fault :
    seen { vector 0 0x06002FF9#32 [] with regs := { (vector 0 0 []).regs with sp := 32767 } }
      (fun t => (t.run, t.reg .r3, t.pc)) = some (.faulted (.addressOutOfRange 33022#32) 0#32, 0#32, 0#32) := by decide

/-- V-SWR1. -/
theorem test_swr :
    seen { vector 0 0x03FE600A#32 [] with regs := { (vector 0 0 []).regs with r3 := 99 } } (cellPc 4094)
      = some (99#32, 1#32) := by decide

/-- V-SCA1. -/
theorem test_sca : seen (vector 0 0x02005FDB#32 []) (cellPc 4096) = some (4093#32, 1#32) := by decide

/-- V-SCA2: the value stored is no access. -/
theorem test_sca_unchecked : seen (vector 0 0x02001FFB#32 []) (cellPc 4096) = some (0xFFFFFFFF#32, 1#32) := by decide

/-- V-NEG1. -/
theorem test_neg : seen (vector 0 0x0200201D#32 [(4097, 5#32)]) (cellPc 4096) = some (0xFFFFFFFB#32, 1#32) := by decide

/-- V-NEG2. -/
theorem test_neg_least :
    seen (vector 0 0x0200201D#32 [(4097, 0x80000000#32)]) (cellPc 4096) = some (0x80000000#32, 1#32) := by decide

/-- V-LIT2. -/
theorem test_lit_sign_extends : seen (vector 0 0x12008001#32 []) (cellPc 4096) = some (0xFFFFF800#32, 1#32) := by decide

/-- V-ARI1. -/
theorem test_ari : seen (vector 0 0x1200FFF2#32 []) (regPc .sp) = some (4095#32, 1#32) := by decide

/-- V-SRI2. -/
theorem test_sri_negative : seen (vector 0 0x16008003#32 []) (regPc .r3) = some (2048#32, 1#32) := by decide

/-- V-MUL1. -/
theorem test_mul_split :
    seen (vector 0 0x12010004#32 [(4096, 0xFFFFFFFF#32), (4097, 2#32)]) hiLo = some (1#32, 0xFFFFFFFE#32) := by decide

/-- V-MUL2. -/
theorem test_mul_largest :
    seen (vector 0 0x12010004#32 [(4096, 0xFFFFFFFF#32), (4097, 0xFFFFFFFF#32)]) hiLo
      = some (0xFFFFFFFE#32, 1#32) := by decide

/-- V-DIV3. -/
theorem test_div_unsigned :
    seen (vector 0 0x12010005#32 [(4096, 0x80000000#32), (4097, 0xFFFFFFFF#32)]) hiLo = some (0x80000000#32, 0#32) := by
  decide

/-- V-DIV6. -/
theorem test_div_by_zero :
    seen { vector 0 0x12010005#32 [(4096, 7#32)] with hi := 9, lo := 8 } (fun t => (t.run, t.hi, t.lo, t.pc))
      = some (.faulted .divideByZero 0#32, 9#32, 8#32, 0#32) := by decide

/-- V-CFHI1. -/
theorem test_cfhi : seen { vector 0 0x13FF0006#32 [] with hi := 1 } (cellPc 4095) = some (1#32, 1#32) := by decide

/-- V-CFLO1. -/
theorem test_cflo :
    seen { vector 0 0x12000007#32 [] with lo := 0xFFFFFFFE#32 } (cellPc 4096) = some (0xFFFFFFFE#32, 1#32) := by decide

/-- V-SLL3. -/
theorem test_sll_31 :
    seen (vector 0 0x120101F8#32 [(4096, 0x80000001#32)]) (cellPc 4097) = some (0x80000000#32, 1#32) := by decide

/-- V-SLL5: an amount over 31 gives 0. -/
theorem test_sll_4095 :
    seen (vector 0 0x1201FFF8#32 [(4096, 0x80000001#32), (4097, 5#32)]) (cellPc 4097) = some (0#32, 1#32) := by decide

/-- V-SRL3: zero fill. -/
theorem test_srl_31 :
    seen (vector 0 0x120101F9#32 [(4096, 0x80000001#32)]) (cellPc 4097) = some (1#32, 1#32) := by decide

/-- V-SRL4. -/
theorem test_srl_32 :
    seen (vector 0 0x12010209#32 [(4096, 0x80000001#32), (4097, 5#32)]) (cellPc 4097) = some (0#32, 1#32) := by decide

/-- V-JMP1. -/
theorem test_jmp : seen (vector 0 0x1200000A#32 [(4096, 12#32)]) (regPc .ra) = some (0#32, 12#32) := by decide

/-- V-CSI1. -/
theorem test_csi : seen (vector 3 0x1200000B#32 [(4096, 12#32)]) (regPc .ra) = some (4#32, 12#32) := by decide

/-- V-CSI2: the address is from the old `RA`. -/
theorem test_csi_through_ra :
    seen { vector 3 0x1E00000B#32 [(4096, 0#32)] with regs := { (vector 0 0 []).regs with ra := 4096 } } (regPc .ra)
      = some (4#32, 0#32) := by decide

/-- V-JREL1. -/
theorem test_jrel_back : seen (vector 10 0x11FE000C#32 []) State.pc = some 9#32 := by decide

/-- V-JREL4, first step. -/
theorem test_jrel_wraps : seen (vector 0 0x11FE000C#32 []) State.pc = some 0xFFFFFFFF#32 := by decide

/-- V-ADDI2. -/
theorem test_addi_sign_extends : seen (vector 0 0x22008000#32 []) (cellPc 4096) = some (0xFFFF8000#32, 1#32) := by decide

/-- V-ANDI2. -/
theorem test_andi_zero_extends :
    seen (vector 0 0x3200FFFF#32 [(4096, 0xDEADBEEF#32)]) (cellPc 4096) = some (0x0000BEEF#32, 1#32) := by decide

/-- V-BORI1. -/
theorem test_bori_zero_extends :
    seen (vector 0 0x42008000#32 [(4096, 1#32)]) (cellPc 4096) = some (0x00008001#32, 1#32) := by decide

/-- V-NORI2. -/
theorem test_nori :
    seen (vector 0 0x5200FFFF#32 [(4096, 0xDEADBEEF#32)]) (cellPc 4096) = some (0x21520000#32, 1#32) := by decide

/-- V-XORI1. -/
theorem test_xori :
    seen (vector 0 0x6200FFFF#32 [(4096, 0x12345678#32)]) (cellPc 4096) = some (0x1234A987#32, 1#32) := by decide

/-- V-BEQ1. -/
theorem test_beq_taken :
    seen (vector 5 0x72010003#32 [(4096, 9#32), (4097, 9#32)]) State.pc = some 9#32 := by decide

/-- V-BEQ2. -/
theorem test_beq_not_taken :
    seen (vector 5 0x72010003#32 [(4096, 9#32), (4097, 8#32)]) State.pc = some 6#32 := by decide

/-- V-BNE1. -/
theorem test_bne_taken : seen (vector 7 0xC201FFFC#32 [(4096, 1#32)]) State.pc = some 4#32 := by decide

/-- V-BNE2. -/
theorem test_bne_not_taken : seen (vector 5 0xC2000007#32 []) State.pc = some 6#32 := by decide

/-- The column of a compare-with-zero branch in table V-BR. -/
def zeroBranchColumn (iw : Word) : List (Option Word) :=
  [0x00000000#32, 0x00000001#32, 0x7FFFFFFF#32, 0x80000000#32, 0xFFFFFFFF#32].map
    fun v => seen (vector 10 iw [(4096, v)]) State.pc

theorem test_bgez_column :
    zeroBranchColumn 0x82000005#32 = [some 16#32, some 16#32, some 16#32, some 11#32, some 11#32] := by decide

theorem test_bgtz_column :
    zeroBranchColumn 0x92000005#32 = [some 11#32, some 16#32, some 16#32, some 11#32, some 11#32] := by decide

theorem test_blez_column :
    zeroBranchColumn 0xA2000005#32 = [some 16#32, some 11#32, some 11#32, some 16#32, some 16#32] := by decide

theorem test_bltz_column :
    zeroBranchColumn 0xB2000005#32 = [some 11#32, some 11#32, some 11#32, some 16#32, some 16#32] := by decide

/-- V-JMPA2, first step. -/
theorem test_jmpa : seen (vector 0 0xDFFFFFFF#32 []) State.pc = some 0x0FFFFFFF#32 := by decide

/-- V-CALL1. -/
theorem test_call : seen (vector 2 0xE0000008#32 []) (regPc .ra) = some (3#32, 8#32) := by decide

/-- V-RTN1. -/
theorem test_rtn :
    seen { vector 0 0xF0000000#32 [] with regs := { (vector 0 0 []).regs with ra := 3 } } (regPc .ra)
      = some (3#32, 3#32) := by decide

/-- A look at `run`, the requests and the `pc`. -/
def runRequestsPc (t : State) : RunState × List EnvRequest × Word := (t.run, t.requests, t.pc)

/-- V-EXIT5. -/
theorem test_exit_least :
    seen (vector 0 0x1100001F#32 []) runRequestsPc = some (.halted 0xFFFFFF00#32, [.exit (-256)], 1#32) := by decide

/-- V-EXIT4. -/
theorem test_exit_largest :
    seen (vector 0 0x10FF001F#32 []) runRequestsPc = some (.halted 255#32, [.exit 255], 1#32) := by decide

/-- V-PSTR2: two words. -/
theorem test_pstr_packed :
    seen (vector 0 0x1201002F#32 [(4097, 0x6C6C6548#32), (4098, 0x0000006F#32)]) runRequestsPc
      = some (.running, [.outStr [0x48#8, 0x65#8, 0x6C#8, 0x6C#8, 0x6F#8]], 1#32) := by decide

/-- V-PSTR5. -/
theorem test_pstr_wordPerChar :
    seen { vector 0 0x1201002F#32 [(4097, 0x48#32), (4098, 0x69#32)] with strLayout := .wordPerChar } runRequestsPc
      = some (.running, [.outStr [0x48#8, 0x69#8]], 1#32) := by decide

/-- V-PINT1. -/
theorem test_pint_signed :
    seen (vector 0 0x1200003F#32 [(4096, 0xFFFFFFFB#32)]) runRequestsPc = some (.running, [.outInt (-5)], 1#32) := by
  decide

/-- V-PCH2: the low 8 bits. -/
theorem test_pch_low_byte :
    seen (vector 0 0x1200004F#32 [(4096, 0x00000141#32)]) runRequestsPc = some (.running, [.outChar 0x41#8], 1#32) := by
  decide

/-- V-RCH1. -/
theorem test_rch_byte :
    seen { vector 0 0x1200005F#32 [] with input := [.byte 0x61#8] } (fun t => (Memory.read t.mem 4096, t.input, t.requests))
      = some (0x00000061#32, [], [.inChar]) := by decide

/-- V-RCH3: no request, and the byte is not consumed. -/
theorem test_rch_fault :
    seen { vector 0 0x11FF005F#32 [] with input := [.byte 0x61#8] } (fun t => (t.run, t.input, t.requests))
      = some (.faulted (.addressOutOfRange 0xFFFFFFFF#32) 0#32, [.byte 0x61#8], []) := by decide

/-- V-STRA1. -/
theorem test_stra :
    seen (vector 0 0x10007FEF#32 []) (fun t => (t.tracing, t.trace.length)) = some (true, 0) := by decide

/-- V-NOTR1. -/
theorem test_notr :
    seen { vector 0 0x10007FFF#32 [] with tracing := true }
      (fun t => (t.tracing, t.trace.map fun e => (e.pc, e.iw, e.insn)))
      = some (false, [(0#32, 0x10007FFF#32, .notr ⟨.gp, 0⟩)]) := by decide

/-! ## The step, faults and reset -/

/-- V-UN3 with tracing on: a decode fault emits no event. -/
theorem test_unrecognized_word_faults :
    step { vector 2 0x0000000F#32 [] with tracing := true } =
      .next { vector 2 0x0000000F#32 [] with
        tracing := true, run := .faulted (.unrecognizedInstruction 0x0000000F#32) 2 } := by rfl

/-- The fault status after one step, as the status interface shows it. -/
def faultStatusAfter (s : State) : Option (Nat × Word × Option Word) := (seen s fun t => t.run.faultStatus).join

/-- The codes of R191, as P6 ends (code 1), S10 (code 2) and S5 (code 3) give them, and V-ADD3 (code 4). -/
theorem test_fault_codes :
    faultStatusAfter { vector 3 0 [] with pc := 4 } = some (1, 4#32, some 4#32) ∧
    faultStatusAfter (vector 2 0x0000000F#32 []) = some (2, 2#32, some 0x0000000F#32) ∧
    faultStatusAfter (vector 0 0x12010005#32 [(4096, 7#32)]) = some (3, 0#32, none) ∧
    faultStatusAfter (vector 0 0x01FF2001#32 []) = some (4, 0#32, some 0xFFFFFFFF#32) ∧
    faultStatusAfter (vector 0 0x1003001F#32 []) = none := by decide

/-- V-ST5: the operand addresses are checked before the divisor. -/
theorem test_div_address_before_divisor :
    seen { vector 0 0x12010005#32 [] with regs := { (vector 0 0 []).regs with sp := 32768 } } State.run
      = some (.faulted (.addressOutOfRange 32768#32) 0#32) := by decide

/-- V-ST1, from the model's reset state: no program is loaded. -/
theorem test_first_step_from_reset :
    step State.reset = .next { State.reset with run := .faulted (.pcOutOfRange 0) 0 } := by rfl

/-- V-ST7. -/
theorem test_reset_registers :
    ([.gp, .sp, .fp, .r3, .r4, .r5, .r6, .ra].map fun r => State.reset.reg r)
      = [0, 4096, 4096, 0, 0, 0, 0, 0] := by decide

/-- A placed word is what the next step runs: V-ARI1 as the first instruction after reset. -/
theorem test_placed_word_runs :
    seen (State.reset.withFetchWord 32 0x1200FFF2) (regPc .sp) = some (4095#32, 1#32) := by decide

/-! ## Witnesses: for every statement with hypotheses, states and operands that meet them, clause by clause -/

/-- What a look at the state after executing `i` shows, if there is a next state. -/
def execSeen {α : Type} (i : Instr) (s : State) (look : State → α) : Option α :=
  match exec i s with
  | .next t => some (look t)
  | .fault _ => none
  | .refused _ => none

theorem step_of_seen {α : Type} {s : State} {look : State → α} {x : α} (h : seen s look = some x) :
    ∃ t, step s = .next t ∧ look t = x := by
  cases hr : step s <;> simp_all [seen]

theorem exec_of_execSeen {α : Type} {i : Instr} {s : State} {look : State → α} {x : α}
    (h : execSeen i s look = some x) : ∃ t, exec i s = .next t ∧ look t = x := by
  cases hr : exec i s <;> simp_all [execSeen]

/-- Whether executing `i` has a next state. -/
def hasNext (i : Instr) (s : State) : Bool := (execSeen i s fun _ => ()).isSome

theorem next_of_hasNext {i : Instr} {s : State} (h : hasNext i s = true) : ∃ t, exec i s = .next t := by
  cases hr : exec i s <;> simp_all [hasNext, execSeen]

theorem next_of_all {l : List Instr} {s : State} (h : (l.all fun i => hasNext i s) = true) :
    ∀ i ∈ l, ∃ t, exec i s = .next t :=
  fun i hi => next_of_hasNext (List.all_eq_true.1 h i hi)

/-- A running state with `x[3] = 32767`, the last address of the array: `$r3, 0` is inside and `$r3, 1` outside. -/
def edge : State :=
  { vector 0 0 [(1024, 9#32), (4096, 17#32), (4097, 5#32), (32767, 3#32)] with
    regs := { gp := 0, sp := 4096, fp := 4096, r3 := 32767, r4 := 0, r5 := 0, r6 := 0, ra := 1 } }

/-- The edge state with `x[SP]` just outside the array. -/
def noTop : State := { edge with regs := { edge.regs with sp := 32768 } }

/-- Operands of the computational shape, all inside the array at its last cell. -/
def compIn : CompFields := ⟨.r3, 0, .r3, 0⟩

/-- The source cell just outside the array. -/
def srcOut : CompFields := ⟨.r3, 0, .r3, 1⟩

/-- The target cell just outside the array. -/
def dstOut : CompFields := ⟨.r3, 1, .r3, 0⟩

theorem witness_UnusedFieldsKeptAndIgnored :
    decode 0x0FFFFFF0#32 = .insn (.nop ⟨.ra, 0x1FF, .ra, 0x1FF⟩) ∧
    (∃ f g : CompFields, f ≠ g ∧ f.rt = g.rt ∧ f.rs = g.rs ∧ f.os = g.os) ∧
    (∃ f g : CompFields, f ≠ g ∧ f.rt = g.rt ∧ f.ot = g.ot ∧ f.rs = g.rs) ∧
    (∃ f g : OthcFields, f ≠ g ∧ f.reg = g.reg ∧ f.arg = g.arg) ∧
    (∃ f g : OthcFields, f ≠ g ∧ f.reg = g.reg ∧ f.offset = g.offset) ∧
    (∃ f g : SysFields, f ≠ g ∧ f.offset = g.offset) :=
  ⟨by decide, ⟨⟨.sp, 0, .fp, 0⟩, ⟨.sp, 1, .fp, 0⟩, by decide⟩, ⟨⟨.sp, 0, .fp, 0⟩, ⟨.sp, 0, .fp, 1⟩, by decide⟩,
    ⟨⟨.sp, 0, 0⟩, ⟨.sp, 1, 0⟩, by decide⟩, ⟨⟨.sp, 0, 0⟩, ⟨.sp, 0, 1⟩, by decide⟩, ⟨⟨.sp, 0⟩, ⟨.fp, 0⟩, by decide⟩⟩

/-- The edge state at the array's last address, with the word there and the text segment ending there. -/
def lastWord (iw : Word) : State := { vector 32767 iw [(4096, 17#32)] with tracing := true }

theorem witness_UnrecognizedWordsFault :
    let s := lastWord 0x0000000F#32
    s.run = .running ∧ inText s.cfg s.pc = true ∧ inMemory s.pc = true ∧
    unassignedWord (Memory.read s.mem s.pc.toNat) = true := by decide

theorem witness_DecodedWordMatchesItsRow :
    decode 0x1003001F#32 = .insn (.exit ⟨.gp, 3⟩) ∧
    0x1003001F#32 &&& (Instr.exit ⟨.ra, 0⟩).tableRow.2 = (Instr.exit ⟨.ra, 0⟩).tableRow.1 := by decide

theorem witness_MemoryReadsLastWrite :
    Memory.wf edge.mem = true ∧ 32767 < memorySize ∧ Memory.wf ([] : Memory) = true ∧
    (∀ a, a < memorySize → Memory.read edge.mem a = Memory.read edge.mem a) :=
  ⟨by decide, by decide, rfl, fun _ _ => rfl⟩

theorem witness_StepRunsDecodedInstruction :
    let s := lastWord 0x1200FFF2#32
    let s' := { s with tracing := false }
    s.run = .running ∧ inText s.cfg s.pc = true ∧ inMemory s.pc = true ∧
    decode (Memory.read s.mem s.pc.toNat) = .insn (.ari ⟨.sp, 0, 0xFFF⟩) ∧ s.tracing = true ∧
    s'.run = .running ∧ inText s'.cfg s'.pc = true ∧ inMemory s'.pc = true ∧
    decode (Memory.read s'.mem s'.pc.toNat) = .insn (.ari ⟨.sp, 0, 0xFFF⟩) ∧ s'.tracing = false := by decide

theorem witness_GuardFaultsOutsideText :
    let below := { vector 15 0 [] with cfg := { (vector 15 0 []).cfg with textStart := 16, textLength := 4 } }
    let past := { vector 15 0 [] with pc := 16 }
    below.run = .running ∧
    ¬ (below.cfg.textStart.toNat ≤ below.pc.toNat ∧
      below.pc.toNat < below.cfg.textStart.toNat + below.cfg.textLength.toNat) ∧
    past.run = .running ∧
    ¬ (past.cfg.textStart.toNat ≤ past.pc.toNat ∧
      past.pc.toNat < past.cfg.textStart.toNat + past.cfg.textLength.toNat) := by decide

/-- The last address of the text segment: V-JMP2's jump out of it takes no fault. -/
theorem witness_GuardFaultsOutsideText_inside :
    let s := vector 0 0x1200000A#32 [(4096, 5000#32)]
    s.run = .running ∧ s.cfg.textStart.toNat ≤ s.pc.toNat ∧
    s.pc.toNat < s.cfg.textStart.toNat + s.cfg.textLength.toNat ∧
    seen s (fun t => (t.run, t.pc)) = some (.running, 5000#32) := by decide

theorem witness_FetchFaultsOutsideArray :
    let s := { vector 0 0 [] with
      pc := 32768, cfg := { (vector 0 0 []).cfg with textStart := 32767, textLength := 2 } }
    s.run = .running ∧ inText s.cfg s.pc = true ∧ 32768 ≤ s.pc.toNat := by decide

theorem witness_StoppedCoreHasNoStep :
    ({ edge with run := .halted 0 } : State).run ≠ .running ∧
    ({ edge with run := .faulted .divideByZero 0 } : State).run ≠ .running := by decide

/-- A traced NOP with one word of global data and a stack window of the two cells `x[SP]` and `stack_bottom`. -/
def tracedNop : State :=
  { edge with
    tracing := true
    cfg := { edge.cfg with dataLength := 1, stackBottom := 4097 } }

/-- The same with `pc` past the text segment. -/
def tracedPast : State := { tracedNop with pc := 1 }

theorem witness_TraceEventPerStep :
    (∃ t, step { tracedNop with tracing := false } = .next t ∧ t.pc = 1#32) ∧
    (∃ t, step tracedPast = .next t ∧ t.tracing = true) ∧
    (∀ i, fetchDecode tracedPast ≠ .ok (Memory.read tracedPast.mem tracedPast.pc.toNat, i)) ∧
    (∃ t, step tracedNop = .next t ∧ t.trace.map (fun e => (e.globalData, e.stackWindow)) =
      [([(1024, 9#32)], [(4096, 17#32), (4097, 5#32)])]) ∧
    tracedNop.tracing = true ∧ Memory.wf tracedNop.mem = true ∧
    fetchDecode tracedNop = .ok (Memory.read tracedNop.mem tracedNop.pc.toNat, .nop ⟨.gp, 0, .gp, 0⟩) :=
  ⟨step_of_seen (look := State.pc) (by decide), step_of_seen (look := State.tracing) (by decide),
    fun i h => absurd ((show fetchDecode tracedPast = .error (.pcOutOfRange 1) from rfl).symm.trans h) nofun,
    step_of_seen (look := fun t => t.trace.map fun e => (e.globalData, e.stackWindow)) (by decide), by decide,
    by decide, rfl⟩

theorem witness_AtMostOneRequestPerStep :
    (∃ t, step (vector 0 0x1200003F#32 []) = .next t ∧ t.requests = [.outInt 0]) ∧
    (∃ t, step { vector 0 0x1200005F#32 [] with input := [.byte 0x61#8] } = .next t ∧ t.input = []) :=
  ⟨step_of_seen (look := State.requests) (by decide), step_of_seen (look := State.input) (by decide)⟩

theorem witness_TopOperandInstructions :
    (inMemory (edge.reg .sp) = true ∧ inMemory (ea edge compIn.rs compIn.os) = true ∧
      inMemory (ea edge compIn.rt compIn.ot) = true) ∧
    inMemory (noTop.reg .sp) = false ∧ inMemory (ea edge srcOut.rs srcOut.os) = false ∧
    (inMemory (ea edge dstOut.rs dstOut.os) = true ∧ inMemory (ea edge dstOut.rt dstOut.ot) = false) := by decide

/-- The hypotheses of CPW and NEG, and those of LWR, SWR and SCA, clause by clause. -/
theorem witness_CopyAndNegateInstructions :
    (inMemory (ea edge compIn.rs compIn.os) = true ∧ inMemory (ea edge compIn.rt compIn.ot) = true) ∧
    inMemory (ea edge srcOut.rs srcOut.os) = false ∧
    (inMemory (ea edge dstOut.rs dstOut.os) = true ∧ inMemory (ea edge dstOut.rt dstOut.ot) = false) := by decide

theorem witness_LoadWordRegister :
    inMemory (ea edge compIn.rs compIn.os) = true ∧ inMemory (ea edge srcOut.rs srcOut.os) = false := by decide

theorem witness_StoreRegisterAndAddress :
    inMemory (ea edge compIn.rt compIn.ot) = true ∧ inMemory (ea edge dstOut.rt dstOut.ot) = false := by decide

/-- In range and out of range: the operands of V-ADD1, V-SUB1 and V-NEG2 wrap, those of the edge state do not. -/
theorem witness_ExactSumsInRange :
    Memory.wf edge.mem = true ∧ inMemory (edge.reg .sp) = true ∧ inMemory (ea edge .r3 0) = true ∧
    (∀ i ∈ ([.add compIn, .sub compIn, .neg compIn, .sca compIn] : List Instr), ∃ t, exec i edge = .next t) ∧
    -2 ^ 31 ≤ (17#32).toInt + (3#32).toInt ∧ (17#32).toInt + (3#32).toInt < 2 ^ 31 ∧
    -2 ^ 31 ≤ (17#32).toInt - (3#32).toInt ∧ (17#32).toInt - (3#32).toInt < 2 ^ 31 ∧
    (3#32).toInt ≠ -2 ^ 31 ∧ (0x80000000#32).toInt = -2 ^ 31 ∧
    Memory.read edge.mem 4096 = 17#32 ∧ Memory.read edge.mem 32767 = 3#32 ∧
    Memory.read (vector 0 0 [(4097, 0x80000000#32)]).mem (ea (vector 0 0 []) .sp 1).toNat = 0x80000000#32 :=
  ⟨by decide, by decide, by decide, next_of_all (by decide), by decide⟩

theorem witness_LiteralAndHiLoStores :
    inMemory (ea edge .r3 0) = true ∧ inMemory (ea edge .r3 1) = false := by decide

theorem witness_MultiplyWideResult :
    (inMemory (edge.reg .sp) = true ∧ inMemory (ea edge .r3 0) = true) ∧ inMemory (noTop.reg .sp) = false ∧
    inMemory (ea edge .r3 1) = false := by decide

theorem witness_DivideRemainderQuotient :
    (inMemory (edge.reg .sp) = true ∧ inMemory (ea edge .r3 0) = true ∧
      Memory.read edge.mem (ea edge .r3 0).toNat ≠ 0) ∧
    inMemory (noTop.reg .sp) = false ∧ inMemory (ea edge .r3 1) = false ∧
    (inMemory (ea edge .r3 0x1FF) = true ∧ Memory.read edge.mem (ea edge .r3 0x1FF).toNat = 0) := by decide

theorem witness_ShiftInstructions :
    (inMemory (edge.reg .sp) = true ∧ inMemory (ea edge .r3 0) = true) ∧ (32 : Nat) ≤ (32#12).toNat ∧
    inMemory (noTop.reg .sp) = false ∧ inMemory (ea edge .r3 1) = false := by decide

theorem witness_IndirectJumpAndCall :
    inMemory (ea edge .r3 0) = true ∧ inMemory (ea edge .r3 1) = false := by decide

theorem witness_ImmediateUpdates :
    inMemory (ea edge .r3 0) = true ∧ inMemory (ea edge .r3 1) = false := by decide

theorem witness_EqualityBranches :
    (inMemory (edge.reg .sp) = true ∧ inMemory (ea edge .r3 0) = true) ∧ inMemory (noTop.reg .sp) = false ∧
    inMemory (ea edge .r3 1) = false := by decide

theorem witness_ZeroBranches :
    inMemory (ea edge .r3 0) = true ∧ inMemory (ea edge .r3 1) = false := by decide

theorem witness_JumpUpperBitsAreZero : configValid edge.cfg = true ∧ inText edge.cfg edge.pc = true := by decide

/-- The string "ab" in the last word of the array. -/
theorem witness_PrintPackedString_ends_inside :
    let s := { edge with mem := cells [(32767, 0x00006261#32)] }
    let a := (ea s .r3 0).toNat
    let bytes : List Byte := [0x61#8, 0x62#8]
    s.strLayout = .packedLe ∧
    (∀ (n : Nat) (h : n < bytes.length), bytes[n] ≠ 0 ∧ packedChar s.mem a n = bytes[n]) ∧
    packedChar s.mem a bytes.length = 0 ∧ a + bytes.length / 4 < memorySize := by decide

/-- V-PSTR4. -/
theorem witness_PrintPackedString_leaves_array :
    let s := { edge with mem := cells [(32767, 0x41414141#32)] }
    ∀ n, (ea s .r3 0).toNat + n / 4 < memorySize → packedChar s.mem (ea s .r3 0).toNat n ≠ 0 := by
  intro s n h
  have h4 : ∀ k, k < 4 → packedChar s.mem (ea s .r3 0).toNat k ≠ 0 := by decide
  have ha : (ea s .r3 0).toNat = 32767 := by decide
  exact h4 n (by simp only [ha, memorySize] at h; omega)

/-- A start outside the array. -/
theorem witness_PrintPackedString_starts_outside :
    ∀ n, (ea edge .r3 1).toNat + n / 4 < memorySize → packedChar edge.mem (ea edge .r3 1).toNat n ≠ 0 := by
  have ha : (ea edge .r3 1).toNat = 32768 := by decide
  intro n h
  simp only [ha, memorySize] at h
  omega

/-- The string "a" in the last two words of the array. -/
theorem witness_PrintWordPerCharString_ends_inside :
    let s := { edge with mem := cells [(32766, 0x161#32)], strLayout := .wordPerChar }
    let a := (ea s .r3 0x1FF).toNat
    let bytes : List Byte := [0x61#8]
    s.strLayout = .wordPerChar ∧
    (∀ (n : Nat) (h : n < bytes.length),
      Memory.read s.mem (a + n) ≠ 0 ∧ (Memory.read s.mem (a + n)).extractLsb' 0 8 = bytes[n]) ∧
    Memory.read s.mem (a + bytes.length) = 0 ∧ a + bytes.length < memorySize := by decide

theorem witness_PrintWordPerCharString_leaves_array :
    (∀ n, (ea edge .r3 0).toNat + n < memorySize → Memory.read edge.mem ((ea edge .r3 0).toNat + n) ≠ 0) ∧
    (∀ n, (ea edge .r3 1).toNat + n < memorySize → Memory.read edge.mem ((ea edge .r3 1).toNat + n) ≠ 0) := by
  have ha : (ea edge .r3 0).toNat = 32767 := by decide
  have hb : (ea edge .r3 1).toNat = 32768 := by decide
  refine ⟨fun n h => ?_, fun n h => ?_⟩
  · obtain rfl : n = 0 := by simp only [ha, memorySize] at h; omega
    decide
  · simp only [hb, memorySize] at h
    omega

theorem witness_PrintIntegerAndCharacter :
    inMemory (ea edge .r3 0) = true ∧ inMemory (ea edge .r3 1) = false := by decide

theorem witness_ReadCharacter :
    inMemory (ea edge .r3 0) = true ∧ ({ edge with input := [.byte 0x61#8] } : State).input = .byte 0x61#8 :: [] ∧
    ({ edge with input := [.endOfInput] } : State).input = .endOfInput :: [] ∧ inMemory (ea edge .r3 1) = false := by
  decide

theorem witness_ReadCharacterWithoutAnswer :
    inMemory (ea edge .r3 0) = true ∧ edge.input = [] ∧
    ({ edge with input := [.never] } : State).input = .never :: [] := by decide

/-! Every instruction a frame names has a next state from the edge state. -/

theorem witness_ComputationalStoreFrame :
    ∀ i ∈ ([.add compIn, .sub compIn, .cpw compIn, .and compIn, .bor compIn, .nor compIn, .xor compIn, .swr compIn,
      .sca compIn, .neg compIn] : List Instr), ∃ t, exec i edge = .next t := next_of_all (by decide)

theorem witness_OtherComputationalStoreFrame :
    ∀ i ∈ ([.lit ⟨.r3, 0, 5⟩, .cfhi ⟨.r3, 0, 5⟩, .cflo ⟨.r3, 0, 5⟩, .sll ⟨.r3, 0, 5⟩, .srl ⟨.r3, 0, 5⟩] : List Instr),
    ∃ t, exec i edge = .next t := next_of_all (by decide)

theorem witness_ImmediateStoreFrame :
    ∀ i ∈ ([.addi ⟨.r3, 0, 5⟩, .andi ⟨.r3, 0, 5⟩, .bori ⟨.r3, 0, 5⟩, .nori ⟨.r3, 0, 5⟩, .xori ⟨.r3, 0, 5⟩] :
      List Instr), ∃ t, exec i edge = .next t := next_of_all (by decide)

theorem witness_RegisterWriterFrame :
    ∀ i ∈ ([.cpr compIn, .lwr compIn, .ari ⟨.r3, 0, 5⟩, .sri ⟨.r3, 0, 5⟩, .csi ⟨.r3, 0, 5⟩, .call ⟨8⟩] : List Instr),
    ∃ t, exec i edge = .next t := next_of_all (by decide)

theorem witness_MultiplyDivideFrame :
    ∀ i ∈ ([.mul ⟨.r3, 0, 5⟩, .div ⟨.r3, 0, 5⟩] : List Instr), ∃ t, exec i edge = .next t := next_of_all (by decide)

theorem witness_PcOnlyFrame :
    ∀ i ∈ ([.nop compIn, .jmp ⟨.r3, 0, 5⟩, .jrel ⟨.r3, 0, 5⟩, .beq ⟨.r3, 0, 5⟩, .bne ⟨.r3, 0, 5⟩, .bgez ⟨.r3, 0, 5⟩,
      .bgtz ⟨.r3, 0, 5⟩, .blez ⟨.r3, 0, 5⟩, .bltz ⟨.r3, 0, 5⟩, .jmpa ⟨8⟩, .rtn ⟨8⟩] : List Instr),
    ∃ t, exec i edge = .next t := next_of_all (by decide)

theorem witness_SystemCallFrame :
    ∀ i ∈ ([.exit ⟨.r3, 0⟩, .pstr ⟨.r3, 0⟩, .pint ⟨.r3, 0⟩, .pch ⟨.r3, 0⟩, .rch ⟨.r3, 0⟩, .stra ⟨.r3, 0⟩,
      .notr ⟨.r3, 0⟩] : List Instr), ∃ t, exec i edge = .next t := next_of_all (by decide)

theorem witness_FaultsArePrecise :
    edge.run = .running ∧
    (∃ t, exec (.div ⟨.r3, 0x1FF, 0⟩) edge = .next t ∧ t.run = .faulted .divideByZero 0) ∧
    (∃ t, step (vector 0 0x12010005#32 []) = .next t ∧ t.run = .faulted .divideByZero 0) :=
  ⟨rfl, exec_of_execSeen (look := State.run) (by decide), step_of_seen (look := State.run) (by decide)⟩

theorem witness_FaultCausesByInstruction :
    edge.run = .running ∧ accessesMemory (.lwr srcOut) = true ∧
    (∃ t, exec (.lwr srcOut) edge = .next t ∧ t.run = .faulted (.addressOutOfRange 32768#32) 0) :=
  ⟨rfl, rfl, exec_of_execSeen (look := State.run) (by decide)⟩

/-- V-ARI1. -/
theorem witness_RegistersChangeOnlyAsNamed :
    ∃ t, step (vector 0 0x1200FFF2#32 []) = .next t ∧ t.reg .sp ≠ (vector 0 0x1200FFF2#32 []).reg .sp := by
  obtain ⟨t, h, hr⟩ := step_of_seen (s := vector 0 0x1200FFF2#32 []) (look := fun t => t.reg .sp) (x := 4095#32)
    (by decide)
  exact ⟨t, h, by rw [hr]; decide⟩

/-- V-MUL1, V-STRA1 and V-EXIT2. -/
theorem witness_ControlStateWriters :
    (∃ t, step (vector 0 0x12010004#32 [(4096, 0xFFFFFFFF#32), (4097, 2#32)]) = .next t ∧ t.hi = 1#32) ∧
    (∃ t, step (vector 0 0x10007FEF#32 []) = .next t ∧ t.tracing = true) ∧
    (∃ t, step (vector 0 0x1003001F#32 []) = .next t ∧ t.run = .halted 3#32) :=
  ⟨step_of_seen (look := State.hi) (by decide), step_of_seen (look := State.tracing) (by decide),
    step_of_seen (look := State.run) (by decide)⟩

theorem witness_OnlyTransfersMovePc :
    isTransfer (.lwr compIn) = false ∧ (∃ t, exec (.lwr compIn) edge = .next t ∧ t.pc = 1#32) :=
  ⟨rfl, exec_of_execSeen (look := State.pc) (by decide)⟩

/-- SWR at address 0 stores the word of V-ARI1 at address 1, inside the text segment. -/
theorem witness_StoreIsSeenByNextFetch :
    let s := { vector 0 0 [] with
      regs := { (vector 0 0 []).regs with r3 := 0x1200FFF2#32 }
      cfg := { (vector 0 0 []).cfg with textLength := 2 } }
    let f : CompFields := ⟨.gp, 1, .r3, 0⟩
    s.run = .running ∧ s.tracing = false ∧ Memory.wf s.mem = true ∧ inMemory (ea s f.rt f.ot) = true ∧
    ea s f.rt f.ot = s.pc + 1 ∧ inText s.cfg (s.pc + 1) = true ∧ hasNext (.swr f) s = true ∧
    decode (s.reg f.rs) = .insn (.ari ⟨.sp, 0, 0xFFF⟩) := by decide

theorem witness_TracingDoesNotInterfere :
    tracedNop ≠ { tracedNop with tracing := false } ∧
    untraced tracedNop = untraced { tracedNop with tracing := false } := by decide

/-- The state of V-ARI1 and its step. -/
theorem witness_StepKeepsInvariant :
    (vector 0 0x1200FFF2#32 []).Inv ∧ ∃ t, step (vector 0 0x1200FFF2#32 []) = .next t ∧ t.pc = 1#32 := by
  refine ⟨⟨by decide, by decide, ?_, ?_, ?_, ?_⟩, step_of_seen (look := State.pc) (by decide)⟩ <;> simp [vector]

/-- A configuration at the boundary of the check: one text word, no gap to one data word, no gap to the stack. -/
def tight : ConfigInputs :=
  { ConfigInputs.standard with
    regs := { textStart := 1, textLength := 1, dataStart := 2, dataLength := 32765, stackBottom := 32767 } }

theorem witness_ConfigurationCheck :
    (applyReset tight [] []).isSome = true ∧
    (applyReset { tight with regs := { tight.regs with textStart := 2 } } [] []).isSome = false ∧
    (applyReset { tight with regs := { tight.regs with dataLength := 32766 } } [] []).isSome = false ∧
    (applyReset { tight with regs := { tight.regs with stackBottom := 32768 } } [] []).isSome = false := by decide

/-- A launch of one text word and one data word, which ResetValues and LaunchMeetsInvariant speak of. -/
theorem witness_launch :
    ∃ s, launch
      { ConfigInputs.standard with regs := { ConfigInputs.standard.regs with textLength := 1, dataLength := 1 } }
      [0x1000001F#32] [7#32] [] = some s ∧ Memory.read s.mem 0 = 0x1000001F#32 ∧ Memory.read s.mem 1024 = 7#32 :=
  ⟨_, rfl, by decide, by decide⟩

theorem witness_PlacedWordRunsNext :
    let s := { edge with pc := 32767 }
    Memory.wf s.mem = true ∧ inMemory s.pc = true ∧
    decodeTableWord 32 0x1200FFF2 = some (.ari ⟨.sp, 0, 0xFFF⟩) := by decide

end Sys2Proof.Tests.Slice0
end

/-! ## The state (spec/10_state.md)

Three layers: what every effect of an instruction leaves unchanged, lifted to the step; the loader and the reset; the
obligations, each a short use of them. -/

namespace Sys2Proof.Machine

/-! ### Frames of the effects -/

/-- `t` differs from `s` at most in the named registers, the named cells, `pc`, and `run` by a precise fault (R194). -/
def Frame (regs : List Reg) (cells : List Nat) (s t : State) : Prop :=
  sameRegsExcept regs s t ∧ sameCellsExcept cells s t ∧ sameHiLo s t ∧ t.tracing = s.tracing ∧ sameConfig s t ∧
    samePorts s t ∧ runsOnOrFaults s t

/-- The instructions that write registers, cells of memory and `pc` alone: all but MUL, DIV and the system calls. -/
def writesRegsAndCellsOnly : Instr → Bool
  | .mul _ | .div _ => false
  | .exit _ | .pstr _ | .pint _ | .pch _ | .rch _ | .stra _ | .notr _ => false
  | _ => true

theorem frame_faultEntry (regs : List Reg) (cells : List Nat) (s : State) (r : FaultReason) :
    Frame regs cells s (faultEntry s r) :=
  ⟨fun _ _ => rfl, fun _ _ => rfl, ⟨rfl, rfl⟩, rfl, ⟨rfl, rfl⟩, ⟨rfl, rfl, rfl⟩, .inr ⟨r, rfl⟩⟩

theorem frame_setPc (regs : List Reg) (cells : List Nat) (s : State) (target : Word) :
    Frame regs cells s (s.setPc target) :=
  ⟨fun _ _ => rfl, fun _ _ => rfl, ⟨rfl, rfl⟩, rfl, ⟨rfl, rfl⟩, ⟨rfl, rfl, rfl⟩, .inl rfl⟩

theorem frame_setReg (cells : List Nat) (s : State) (r : Reg) (v target : Word) :
    Frame [r] cells s ((s.setReg r v).setPc target) := by
  have hregs : sameRegsExcept [r] s ((s.setReg r v).setPc target) := by
    intro q hq
    rw [State.setPc_reg, State.setReg_reg, if_neg (List.ne_of_not_mem_cons hq)]
  exact ⟨hregs, fun _ _ => rfl, ⟨rfl, rfl⟩, rfl, ⟨rfl, rfl⟩, ⟨rfl, rfl, rfl⟩, .inl rfl⟩

theorem frame_storeCell (regs : List Reg) (s : State) (a : Nat) (v target : Word) :
    Frame regs [a] s ((s.setMem (Memory.write s.mem a v)).setPc target) :=
  ⟨fun _ _ => rfl, fun _ hb => Memory.read_write_other s.mem v (List.ne_of_not_mem_cons hb), ⟨rfl, rfl⟩, rfl,
    ⟨rfl, rfl⟩, ⟨rfl, rfl, rfl⟩, .inl rfl⟩

/-- Such an instruction changes at most its destination register and the cell it stores to. -/
theorem Effect.frame {i : Instr} {s t : State} (e : Effect i s t) (hi : writesRegsAndCellsOnly i = true) :
    Frame (regTarget i).toList ((storeTarget i s).map BitVec.toNat).toList s t := by
  cases e with
  | fault r _ => exact frame_faultEntry _ _ s r
  | store a v hs _ _ => rw [hs]; exact frame_storeCell _ s a.toNat v (npc s)
  | register r v target hr _ => rw [hr]; exact frame_setReg _ s r v target
  | jump target _ => exact frame_setPc _ _ s target
  | nop _ => exact frame_setPc _ _ s (npc s)
  | hiLo _ _ h => obtain ⟨f, rfl⟩ | ⟨f, rfl⟩ := h <;> cases hi
  | output _ _ _ _ h => obtain ⟨f, rfl⟩ | ⟨f, rfl⟩ | ⟨f, rfl⟩ := h <;> cases hi
  | exit f h => subst h; cases hi
  | input f _ _ h _ _ => subst h; cases hi
  | tracing _ h => obtain ⟨f, rfl⟩ | ⟨f, rfl⟩ := h <;> cases hi

/-- `Effect.frame` for an instruction that stores no cell. -/
theorem exec_frame_of_no_store {i : Instr} {s t : State} (h : exec i s = .next t)
    (hi : writesRegsAndCellsOnly i = true) (hs : storeTarget i s = none) : Frame (regTarget i).toList [] s t := by
  have hframe := (exec_next h).frame hi
  rwa [hs] at hframe

/-! ### Which effect changes a field -/

theorem Effect.regTarget_of_reg_ne {i : Instr} {s t : State} {r : Reg} (e : Effect i s t) (h : t.reg r ≠ s.reg r) :
    regTarget i = some r := by
  cases e with
  | register q v target hq _ =>
    rw [State.setPc_reg, State.setReg_reg] at h
    by_cases hrq : r = q
    · rw [hrq, hq]
    · rw [if_neg hrq] at h
      exact absurd rfl h
  | _ => exact absurd rfl h

theorem Effect.mul_or_div_of_hiLo_ne {i : Instr} {s t : State} (e : Effect i s t) (h : t.hi ≠ s.hi ∨ t.lo ≠ s.lo) :
    ∃ f, i = .mul f ∨ i = .div f := by
  cases e with
  | hiLo _ _ hi => exact exists_or.mpr hi
  | _ => exact h.elim (absurd rfl) (absurd rfl)

theorem Effect.stra_or_notr_of_tracing_ne {i : Instr} {s t : State} (e : Effect i s t) (h : t.tracing ≠ s.tracing) :
    ∃ f, i = .stra f ∨ i = .notr f := by
  cases e with
  | tracing _ hi => exact exists_or.mpr hi
  | _ => exact absurd rfl h

theorem Effect.exit_of_halted {i : Instr} {s t : State} {c : Word} (e : Effect i s t) (hs : s.run = .running)
    (h : t.run = .halted c) : ∃ f, i = .exit f ∧ c = sext9 f.offset := by
  cases e with
  | exit f hi => exact ⟨f, hi, (RunState.halted.inj h).symm⟩
  | fault _ _ => cases h
  | _ => exact RunState.noConfusion (hs.symm.trans h)

theorem Effect.sameConfig {i : Instr} {s t : State} (e : Effect i s t) : sameConfig s t := by
  cases e <;> exact ⟨rfl, rfl⟩

theorem Effect.pc_eq_npc_or_fault {i : Instr} {s t : State} (e : Effect i s t) (hi : isTransfer i = false) :
    t.pc = npc s ∨ ∃ r, t = faultEntry s r := by
  cases e with
  | fault r _ => exact .inr ⟨r, rfl⟩
  | register _ _ target _ hp => exact .inl (hp.resolve_left (by simp [hi]))
  | jump _ hp => exact absurd hp (by simp [hi])
  | _ => exact .inl rfl

/-- Everything a step can do, by effects: a fault before execution, or an effect of the fetched instruction on the state
after the trace step. -/
theorem step_effect {s t : State} (h : step s = .next t) :
    (∃ r, t = faultEntry s r) ∨ ∃ iw i, fetchDecode s = .ok (iw, i) ∧ Effect i (traced s iw i) t := by
  obtain ⟨-, ⟨iw, i, hf, hexec⟩ | ⟨r, -, ht⟩⟩ := step_next h
  · exact .inr ⟨iw, i, hf, exec_next hexec⟩
  · exact .inl ⟨r, ht⟩

/-! ### Loading and reset -/

/-- Words loaded into the array read back in order. -/
theorem loadWords_read_loaded {m : Memory} {base : Nat} (ws : List Word) (hm : Memory.wf m = true)
    (hfit : base + ws.length ≤ memorySize) (n : Nat) (hn : n < ws.length) :
    Memory.read (loadWords m base ws) (base + n) = ws[n] := by
  induction ws generalizing m base n with
  | nil => cases hn
  | cons w ws ih =>
    rw [List.length_cons] at hfit hn
    have hwrite : Memory.wf (Memory.write m base w) = true := Memory.write_wf w hm (by omega)
    rw [loadWords]
    cases n with
    | zero =>
      rw [loadWords_read_other ws (.inl (by omega)), List.getElem_cons_zero]
      exact Memory.read_write_same w hm
    | succ n =>
      rw [List.getElem_cons_succ, show base + (n + 1) = base + 1 + n by omega]
      exact ih hwrite (by omega) n (by omega)

theorem configValid_iff {c : ConfigRegs} :
    configValid c = true ↔
      c.dataStart.toNat < c.stackBottom.toNat ∧ c.stackBottom.toNat < memorySize ∧
      c.textLength.toNat < c.dataStart.toNat ∧ c.textStart.toNat + c.textLength.toNat ≤ c.dataStart.toNat ∧
      c.dataStart.toNat + c.dataLength.toNat ≤ c.stackBottom.toNat := by
  simp [configValid, and_assoc]

theorem launch_eq_some {c : ConfigInputs} {text data : List Word} {input : List CharAnswer} {s : State}
    (h : launch c text data input = some s) :
    text.length = c.regs.textLength.toNat ∧ data.length = c.regs.dataLength.toNat ∧ configValid c.regs = true ∧
      s = State.atReset c (loadImage c.regs text data) input := by
  unfold launch at h
  split at h
  · rename_i hlen
    unfold applyReset at h
    split at h
    · rename_i hc
      have ⟨htext, hdata⟩ : text.length = c.regs.textLength.toNat ∧ data.length = c.regs.dataLength.toNat := by
        simpa using hlen
      exact ⟨htext, hdata, hc, (Option.some.inj h).symm⟩
    · cases h
  · cases h

theorem atReset_inv {c : ConfigInputs} {m : Memory} (input : List CharAnswer) (hm : Memory.wf m = true)
    (hc : configValid c.regs = true) : (State.atReset c m input).Inv where
  memory := hm
  config := hc
  halted _ h := nomatch h
  noExit _ _ h := nomatch h
  faultPc _ _ h := nomatch h
  trace _ h := nomatch h

section LoadImage

variable {c : ConfigRegs} {text data : List Word}

/-- A text segment that ends before the data segment keeps its words when the data is loaded. -/
theorem loadImage_read_text (hfit : c.textStart.toNat + text.length ≤ c.dataStart.toNat)
    (hmem : c.dataStart.toNat ≤ memorySize) (n : Nat) (hn : n < text.length) :
    Memory.read (loadImage c text data) (c.textStart.toNat + n) = text[n] := by
  rw [loadImage, loadWords_read_other data (.inl (by omega))]
  exact loadWords_read_loaded text rfl (by omega) n hn

theorem loadImage_read_data (htext : c.textStart.toNat + text.length ≤ memorySize)
    (hdata : c.dataStart.toNat + data.length ≤ memorySize) (n : Nat) (hn : n < data.length) :
    Memory.read (loadImage c text data) (c.dataStart.toNat + n) = data[n] :=
  loadWords_read_loaded data (loadWords_wf text rfl htext) hdata n hn

theorem loadImage_read_elsewhere {a : Nat} (htext : a < c.textStart.toNat ∨ c.textStart.toNat + text.length ≤ a)
    (hdata : a < c.dataStart.toNat ∨ c.dataStart.toNat + data.length ≤ a) :
    Memory.read (loadImage c text data) a = 0 := by
  rw [loadImage, loadWords_read_other data hdata, loadWords_read_other text htext, Memory.read_nil]

end LoadImage

theorem atReset_reg_eq_zero (c : ConfigInputs) (m : Memory) (input : List CharAnswer) {r : Reg} (hsp : r ≠ .sp)
    (hfp : r ≠ .fp) : (State.atReset c m input).reg r = 0 := by
  cases r with
  | sp => exact absurd rfl hsp
  | fp => exact absurd rfl hfp
  | _ => rfl

/-! ### The obligations -/

/-- Settles O9: canonical memories read 0 outside the array, so reading alike inside it is reading alike everywhere. -/
theorem memoryReadsLastWrite : Obligations.MemoryReadsLastWrite := by
  refine ⟨fun m a b v hm ha => ⟨Memory.write_wf v hm ha, ?_⟩, fun m m' hm hm' hread => ?_⟩
  · split
    · subst b
      exact Memory.read_write_same v hm
    · exact Memory.read_write_other m v ‹_›
  · refine Memory.eq_of_read hm hm' fun a => ?_
    rcases Nat.lt_or_ge a memorySize with ha | ha
    · exact hread a ha
    · rw [Memory.read_outside hm ha, Memory.read_outside hm' ha]

/-- Settles O44, by the frame of the effects: each pair names the instruction's destination register. -/
theorem registerWriterFrame : Obligations.RegisterWriterFrame := by
  intro f g h s t p hp hexec
  have hwriter : writesRegsAndCellsOnly p.1 = true ∧ storeTarget p.1 s = none ∧ regTarget p.1 = some p.2 := by
    revert p
    simp [writesRegsAndCellsOnly, storeTarget, regTarget]
  obtain ⟨honly, hstore, hreg⟩ := hwriter
  have hframe := exec_frame_of_no_store hexec honly hstore
  rwa [hreg] at hframe

/-- Settles O46, by the frame of the effects: none of the eleven has a destination register or stores a cell. -/
theorem pcOnlyFrame : Obligations.PcOnlyFrame := by
  intro e f g h s t i hi hexec
  have hpc : writesRegsAndCellsOnly i = true ∧ storeTarget i s = none ∧ regTarget i = none := by
    revert i
    simp [writesRegsAndCellsOnly, storeTarget, regTarget]
  obtain ⟨honly, hstore, hreg⟩ := hpc
  have hframe := exec_frame_of_no_store hexec honly hstore
  rwa [hreg] at hframe

/-- Settles O50: a fault before execution changes no register, and an effect only the destination. -/
theorem registersChangeOnlyAsNamed : Obligations.RegistersChangeOnlyAsNamed := by
  intro s t r hstep hne
  obtain ⟨q, rfl⟩ | ⟨iw, i, hf, e⟩ := step_effect hstep
  · exact absurd rfl hne
  · exact ⟨iw, i, hf, e.regTarget_of_reg_ne (by rwa [traced_reg])⟩

/-- Settles O51: a fault before execution changes `run` alone, and to `Faulted`; an effect tells the instruction. -/
theorem controlStateWriters : Obligations.ControlStateWriters := by
  intro s t hstep
  have hrun := (step_next hstep).1
  obtain ⟨q, rfl⟩ | ⟨iw, i, hf, e⟩ := step_effect hstep
  · exact ⟨fun h => h.elim (absurd rfl) (absurd rfl), fun h => absurd rfl h, fun _ h => (nomatch h),
      rfl, rfl⟩
  · refine ⟨fun h => ?_, fun h => ?_, fun c h => ?_, ?_⟩
    · obtain ⟨f, rfl | rfl⟩ := e.mul_or_div_of_hiLo_ne (by rwa [traced_hi, traced_lo])
      · exact ⟨iw, f, .inl hf⟩
      · exact ⟨iw, f, .inr hf⟩
    · obtain ⟨f, rfl | rfl⟩ := e.stra_or_notr_of_tracing_ne (by rwa [traced_tracing])
      · exact ⟨iw, f, .inl hf⟩
      · exact ⟨iw, f, .inr hf⟩
    · obtain ⟨f, rfl, hc⟩ := e.exit_of_halted (by rwa [traced_run]) h
      exact ⟨iw, f, hf, hc⟩
    · have ⟨hcfg, hlayout⟩ := e.sameConfig
      exact ⟨hcfg.trans (traced_cfg s iw i), hlayout.trans (traced_strLayout s iw i)⟩

/-- Settles O52. -/
theorem onlyTransfersMovePc : Obligations.OnlyTransfersMovePc :=
  fun _ _ _ hexec hi => (exec_next hexec).pc_eq_npc_or_fault hi

/-- Settles O59: the checked configuration keeps the segments apart and in the array, so the loaded words stay. -/
theorem resetValues : Obligations.ResetValues := by
  intro c text data input s hlaunch
  obtain ⟨htext, hdata, hvalid, rfl⟩ := launch_eq_some hlaunch
  obtain ⟨hds, hsb, -, htd, hdl⟩ := configValid_iff.mp hvalid
  rw [← htext] at htd
  rw [← hdata] at hdl
  exact ⟨rfl, rfl, rfl, fun r => atReset_reg_eq_zero c _ input, rfl, rfl, rfl, rfl, rfl,
    loadImage_read_text htd (by omega), loadImage_read_data (by omega) (by omega),
    fun a => loadImage_read_elsewhere⟩

/-- Settles O8. -/
theorem everyRegisterIsWritable : Obligations.EveryRegisterIsWritable :=
  ⟨State.setReg_reg, fun c m input => atReset_reg_eq_zero c m input (by decide) (by decide)⟩

/-- Settles O56: the empty memory is canonical and the standard configuration passes the check. -/
theorem resetMeetsInvariant : Obligations.ResetMeetsInvariant :=
  atReset_inv [] rfl (by decide)

end Sys2Proof.Machine

/-! ## The memory (spec/20_memory.md)

The core has one memory for text and data: what a store leaves in a cell is what a later fetch decodes from it. Two layers:
what the step does with the word at `pc`; the obligation. -/

namespace Sys2Proof.Machine

/-! ### From the word at `pc` to its execution -/

/-- The converse of `fetchDecode_ok`: a recognized word at an address inside the text segment and the array is fetched. -/
theorem fetchDecode_of_decode {s : State} {iw : Word} {i : Instr} (htext : inText s.cfg s.pc = true)
    (hmem : inMemory s.pc = true) (hread : Memory.read s.mem s.pc.toNat = iw) (hdecode : decode iw = .insn i) :
    fetchDecode s = .ok (iw, i) := by
  subst hread
  simp [fetchDecode, htext, hmem, hdecode]

theorem step_of_fetchDecode {s : State} {iw : Word} {i : Instr} (hrun : s.run = .running)
    (hfetch : fetchDecode s = .ok (iw, i)) : step s = exec i (traced s iw i) := by
  simp [step, hrun, hfetch]

theorem traced_of_not_tracing {s : State} (iw : Word) (i : Instr) (h : s.tracing = false) : traced s iw i = s := by
  simp [traced, h]

/-- With tracing off, the step executes the instruction at `pc` on the state itself. -/
theorem step_eq_exec_of_not_tracing {s : State} {iw : Word} {i : Instr} (hrun : s.run = .running)
    (htracing : s.tracing = false) (hfetch : fetchDecode s = .ok (iw, i)) : step s = exec i s := by
  rw [step_of_fetchDecode hrun hfetch, traced_of_not_tracing iw i htracing]

theorem exec_swr (f : CompFields) (s : State) :
    exec (.swr f) s = writeCell s (ea s f.rt f.ot) (s.reg f.rs) := rfl

/-! ### The obligation -/

/-- Settles O53: SWR leaves the word in the cell its `pc` then names, and the fetch reads that same memory. -/
theorem storeIsSeenByNextFetch : Obligations.StoreIsSeenByNextFetch := by
  intro f i s t hrun htracing hwf hmem htarget htext hexec hdecode
  rw [exec_swr, writeCell_inside _ hmem, htarget] at hexec
  rw [htarget] at hmem
  obtain rfl := next_inj hexec
  have hread : Memory.read (Memory.write s.mem (s.pc + 1).toNat (s.reg f.rs)) (s.pc + 1).toNat = s.reg f.rs :=
    Memory.read_write_same _ hwf
  exact step_eq_exec_of_not_tracing hrun htracing (fetchDecode_of_decode htext hmem hread hdecode)

end Sys2Proof.Machine

/-! ## The encoding (spec/30_encoding.md)

Four layers: the decoder on the word of each shape; the words it recognizes and those it does not; what the machine makes of
a word's fields; the obligations. -/

namespace Sys2Proof

/-! ### The decoder on the word of each shape -/

theorem decode_of_op_zero {w : Word} (h : (opField w).toNat = 0) : decode w = decodeComp w := by
  simp [decode, h]

theorem decode_of_op_one {w : Word} (h : (opField w).toNat = 1) : decode w = decodeOthc w := by
  simp [decode, h]

theorem decodeOthc_of_func_fifteen {w : Word} (h : (funcField w).toNat = 15) : decodeOthc w = decodeSys w := by
  simp [decodeOthc, h]

theorem decode_compWord (f : CompFields) (func : BitVec 4) :
    decode (compWord f func) = decodeComp (compWord f func) :=
  decode_of_op_zero (congrArg BitVec.toNat (opField_compWord f func))

theorem decode_othcWord (f : OthcFields) (func : BitVec 4) :
    decode (othcWord f func) = decodeOthc (othcWord f func) :=
  decode_of_op_one (congrArg BitVec.toNat (opField_othcWord f func))

theorem decode_sysWord (f : SysFields) (code : BitVec 12) :
    decode (sysWord f code) = decodeSys (sysWord f code) :=
  (decode_of_op_one (congrArg BitVec.toNat (opField_sysWord f code))).trans
    (decodeOthc_of_func_fifteen (congrArg BitVec.toNat (funcField_sysWord f code)))

theorem decode_encode (i : Instr) : decode (encode i) = .insn i := by
  cases i with
  | nop f | add f | sub f | cpw f | cpr f | and f | bor f | nor f | xor f | lwr f | swr f | sca f | neg f =>
    simp [encode, decode_compWord, decodeComp]
  | lit f | ari f | sri f | mul f | div f | cfhi f | cflo f | sll f | srl f | jmp f | csi f | jrel f =>
    simp [encode, decode_othcWord, decodeOthc]
  | addi f | andi f | bori f | nori f | xori f | beq f | bgez f | bgtz f | blez f | bltz f | bne f =>
    simp [encode, decode]
  | jmpa f | call f | rtn f => simp [encode, decode]
  | exit f | pstr f | pint f | pch f | rch f | stra f | notr f => simp [encode, decode_sysWord, decodeSys]

/-! ### The words the decoder recognizes -/

section Recognized

variable {w : Word} {i : Instr} {k : Nat}

theorem compWord_of_func (hop : (opField w).toNat = 0) (hfunc : (funcField w).toNat = k) :
    compWord (compFields w) (BitVec.ofNat 4 k) = w := by
  rw [← eq_ofNat_of_toNat hfunc]
  exact compWord_fields w (eq_ofNat_of_toNat hop)

theorem othcWord_of_func (hop : (opField w).toNat = 1) (hfunc : (funcField w).toNat = k) :
    othcWord (othcFields w) (BitVec.ofNat 4 k) = w := by
  rw [← eq_ofNat_of_toNat hfunc]
  exact othcWord_fields w (eq_ofNat_of_toNat hop)

theorem sysWord_of_code (hop : (opField w).toNat = 1) (hfunc : (funcField w).toNat = 15)
    (hcode : (codeField w).toNat = k) : sysWord (sysFields w) (BitVec.ofNat 12 k) = w := by
  rw [← eq_ofNat_of_toNat hcode]
  exact sysWord_fields w (eq_ofNat_of_toNat hop) (eq_ofNat_of_toNat hfunc)

theorem immWord_of_op (hop : (opField w).toNat = k) : immWord (BitVec.ofNat 4 k) (immFields w) = w := by
  rw [← eq_ofNat_of_toNat hop]
  exact immWord_fields w

theorem jumpWord_of_op (hop : (opField w).toNat = k) : jumpWord (BitVec.ofNat 4 k) (jumpFields w) = w := by
  rw [← eq_ofNat_of_toNat hop]
  exact jumpWord_fields w

theorem encode_of_decodeComp (hop : (opField w).toNat = 0) (h : decodeComp w = .insn i) : encode i = w := by
  unfold decodeComp at h
  split at h <;> cases h
  all_goals exact compWord_of_func hop ‹_›

theorem encode_of_decodeSys (hop : (opField w).toNat = 1) (hfunc : (funcField w).toNat = 15)
    (h : decodeSys w = .insn i) : encode i = w := by
  unfold decodeSys at h
  split at h <;> cases h
  all_goals exact sysWord_of_code hop hfunc ‹_›

theorem encode_of_decodeOthc (hop : (opField w).toNat = 1) (h : decodeOthc w = .insn i) : encode i = w := by
  unfold decodeOthc at h
  split at h
  -- `func = 15` selects a system call
  case h_13 hfunc => exact encode_of_decodeSys hop hfunc h
  all_goals cases h
  all_goals exact othcWord_of_func hop ‹_›

theorem encode_of_decode (h : decode w = .insn i) : encode i = w := by
  unfold decode at h
  split at h
  case h_1 hop => exact encode_of_decodeComp hop h
  case h_2 hop => exact encode_of_decodeOthc hop h
  case h_14 hop | h_15 hop =>
    cases h
    exact jumpWord_of_op hop
  -- the last arm stands for `op = 15`
  case h_16 =>
    have hop : (opField w).toNat = 15 := by
      have hlt := (opField w).isLt
      simp only [imp_false] at *
      omega
    cases h
    exact jumpWord_of_op hop
  all_goals cases h
  all_goals exact immWord_of_op ‹_›

end Recognized

/-! ### The words the decoder does not recognize -/

section Unrecognized

variable {w v : Word}

theorem unassignedWord_iff :
    unassignedWord w = true ↔
      ((opField w).toNat = 0 ∧ (funcField w).toNat ∈ [12, 14, 15]) ∨
      ((opField w).toNat = 1 ∧ (funcField w).toNat ∈ [0, 13, 14]) ∨
      ((opField w).toNat = 1 ∧ (funcField w).toNat = 15 ∧ (codeField w).toNat ∉ [1, 2, 3, 4, 5, 2046, 2047]) := by
  simp [unassignedWord, opField, funcField, codeField, or_assoc, and_assoc]

theorem decodeComp_unrecognized (h : decodeComp w = .unrecognized v) :
    v = w ∧ (funcField w).toNat ∈ [12, 14, 15] := by
  have hlt := (funcField w).isLt
  unfold decodeComp at h
  split at h <;> cases h
  simp only [List.mem_cons, List.not_mem_nil, or_false, true_and, imp_false] at *
  omega

theorem decodeSys_unrecognized (h : decodeSys w = .unrecognized v) :
    v = w ∧ (codeField w).toNat ∉ [1, 2, 3, 4, 5, 2046, 2047] := by
  unfold decodeSys at h
  split at h <;> cases h
  simp only [List.mem_cons, List.not_mem_nil, or_false, true_and, imp_false] at *
  omega

theorem decodeOthc_unrecognized (h : decodeOthc w = .unrecognized v) :
    v = w ∧ ((funcField w).toNat ∈ [0, 13, 14] ∨
      ((funcField w).toNat = 15 ∧ (codeField w).toNat ∉ [1, 2, 3, 4, 5, 2046, 2047])) := by
  have hlt := (funcField w).isLt
  unfold decodeOthc at h
  split at h
  -- `func = 15` selects a system call
  case h_13 hfunc =>
    have ⟨hv, hcode⟩ := decodeSys_unrecognized h
    exact ⟨hv, .inr ⟨hfunc, hcode⟩⟩
  all_goals cases h
  refine ⟨rfl, .inl ?_⟩
  simp only [List.mem_cons, List.not_mem_nil, or_false, imp_false] at *
  omega

theorem decode_unrecognized (h : decode w = .unrecognized v) : v = w ∧ unassignedWord w = true := by
  rw [unassignedWord_iff]
  unfold decode at h
  split at h
  case h_1 hop =>
    have ⟨hv, hfunc⟩ := decodeComp_unrecognized h
    exact ⟨hv, .inl ⟨hop, hfunc⟩⟩
  case h_2 hop =>
    obtain ⟨hv, hfunc | hcode⟩ := decodeOthc_unrecognized h
    · exact ⟨hv, .inr (.inl ⟨hop, hfunc⟩)⟩
    · exact ⟨hv, .inr (.inr ⟨hop, hcode⟩)⟩
  all_goals cases h

theorem unassignedWord_encode (i : Instr) : unassignedWord (encode i) = false := by
  rw [Bool.eq_false_iff, ne_eq, unassignedWord_iff]
  cases i <;> simp [encode]

theorem decode_unrecognized_iff : decode w = .unrecognized w ↔ unassignedWord w = true := by
  refine ⟨fun h => (decode_unrecognized h).2, fun h => ?_⟩
  cases hd : decode w with
  | unrecognized v => rw [(decode_unrecognized hd).1]
  | insn i =>
    rw [← encode_of_decode hd, unassignedWord_encode] at h
    cases h

end Unrecognized
end Sys2Proof

namespace Sys2Proof.Machine

/-! ### Operands -/

/-- Sign extension to a word keeps the signed reading, which lies in the range of the field's width. -/
theorem toInt_signExtend_word {n : Nat} (x : BitVec n) (hn : n ≤ 32) :
    (x.signExtend 32).toInt = x.toInt ∧ -2 ^ (n - 1) ≤ (x.signExtend 32).toInt ∧
      (x.signExtend 32).toInt ≤ 2 ^ (n - 1) - 1 := by
  rw [BitVec.toInt_signExtend_of_le hn]
  exact ⟨rfl, BitVec.le_toInt x, Int.le_sub_one_of_lt BitVec.toInt_lt⟩

theorem sext9_toInt (o : BitVec 9) :
    (sext9 o).toInt = o.toInt ∧ -256 ≤ (sext9 o).toInt ∧ (sext9 o).toInt ≤ 255 :=
  toInt_signExtend_word o (by decide)

theorem sext12_toInt (a : BitVec 12) :
    (sext12 a).toInt = a.toInt ∧ -2048 ≤ (sext12 a).toInt ∧ (sext12 a).toInt ≤ 2047 :=
  toInt_signExtend_word a (by decide)

theorem sext16_toInt (i : BitVec 16) :
    (sext16 i).toInt = i.toInt ∧ -32768 ≤ (sext16 i).toInt ∧ (sext16 i).toInt ≤ 32767 :=
  toInt_signExtend_word i (by decide)

theorem zext16_eq_append (i : BitVec 16) : zext16 i = 0#16 ++ i :=
  BitVec.setWidth_eq_append (by decide)

/-! ### The fetch of an unrecognized word -/

theorem fetchDecode_of_unassigned {s : State} (htext : inText s.cfg s.pc = true) (hmem : inMemory s.pc = true)
    (hword : unassignedWord (Memory.read s.mem s.pc.toNat) = true) :
    fetchDecode s = .error (.unrecognizedInstruction (Memory.read s.mem s.pc.toNat)) := by
  simp [fetchDecode, htext, hmem, decode_unrecognized_iff.mpr hword]

theorem raise_eq_faulted (s : State) (r : FaultReason) : raise s r = faulted s r := rfl

theorem step_of_fetchDecode_error {s : State} {r : FaultReason} (hrun : s.run = .running)
    (hfetch : fetchDecode s = .error r) : step s = faulted s r := by
  simp only [step, hrun, hfetch, raise_eq_faulted]

/-! ### Unused fields -/

theorem exec_comp_ignores_unused_fields (f g : CompFields) (s : State) :
    exec (.nop f) s = exec (.nop g) s ∧
    (f.rt = g.rt → f.rs = g.rs → exec (.cpr f) s = exec (.cpr g) s) ∧
    (f.rt = g.rt → f.rs = g.rs → f.os = g.os → exec (.lwr f) s = exec (.lwr g) s) ∧
    (f.rt = g.rt → f.ot = g.ot → f.rs = g.rs → exec (.swr f) s = exec (.swr g) s) := by
  refine ⟨rfl, fun hrt hrs => ?_, fun hrt hrs hos => ?_, fun hrt hot hrs => ?_⟩
  · simp only [exec, execCpr, hrt, hrs]
  · simp only [exec, execLwr, hrt, hrs, hos]
  · simp only [exec, execSwr, hrt, hot, hrs]

theorem exec_othc_ignores_unused_fields (f g : OthcFields) (s : State) :
    (f.reg = g.reg → f.arg = g.arg → exec (.ari f) s = exec (.ari g) s ∧ exec (.sri f) s = exec (.sri g) s) ∧
    (f.reg = g.reg → f.offset = g.offset →
      exec (.mul f) s = exec (.mul g) s ∧ exec (.div f) s = exec (.div g) s ∧
      exec (.cfhi f) s = exec (.cfhi g) s ∧ exec (.cflo f) s = exec (.cflo g) s ∧
      exec (.jmp f) s = exec (.jmp g) s ∧ exec (.csi f) s = exec (.csi g) s) ∧
    (f.offset = g.offset → exec (.jrel f) s = exec (.jrel g) s) := by
  refine ⟨fun hreg harg => ?_, fun hreg hoffset => ?_, fun hoffset => ?_⟩
  · simp only [exec, execAri, execSri, hreg, harg, and_self]
  · simp only [exec, execMul, execDiv, execCfhi, execCflo, execJmp, execCsi, hreg, hoffset, and_self]
  · simp only [exec, execJrel, hoffset]

theorem exec_sys_ignores_unused_fields (f g : SysFields) (s : State) :
    (f.offset = g.offset → exec (.exit f) s = exec (.exit g) s) ∧
    exec (.stra f) s = exec (.stra g) s ∧ exec (.notr f) s = exec (.notr g) s := by
  refine ⟨fun hoffset => ?_, rfl, rfl⟩
  simp only [exec, execExit, hoffset]

/-! ### The obligations -/

/-- Settles O1: the fields and codes of each shape's word read back as they were put in. -/
theorem decodeEncodeRoundTrip : Obligations.DecodeEncodeRoundTrip := decode_encode

/-- Settles O2: the word of an instruction is `encode` of it, and no meaning reads an unused field. -/
theorem unusedFieldsKeptAndIgnored : Obligations.UnusedFieldsKeptAndIgnored :=
  ⟨fun i => ⟨encode i, decode_encode i⟩, fun _ _ => encode_of_decode, exec_comp_ignores_unused_fields,
    exec_othc_ignores_unused_fields, fun _ _ _ => rfl, exec_sys_ignores_unused_fields⟩

/-- Settles O3: no encoded word is unassigned, so an unassigned word decodes to no instruction. -/
theorem unrecognizedWordsFault : Obligations.UnrecognizedWordsFault :=
  ⟨fun _ => ⟨decode_unrecognized_iff, fun _ h => (decode_unrecognized h).1⟩,
    fun _ hrun htext hmem hword => step_of_fetchDecode_error hrun (fetchDecode_of_unassigned htext hmem hword)⟩

/-- Settles O7: the extensions by their signed and unsigned readings, the jump address by its two slices. -/
theorem operandFieldReadings : Obligations.OperandFieldReadings := by
  refine ⟨sext9_toInt, sext12_toInt, fun a => ⟨rfl, Nat.le_of_lt_succ a.isLt⟩, sext16_toInt, fun i => ⟨?_, ?_⟩,
    fun s a => ⟨?_, ?_⟩⟩
  · exact BitVec.toNat_setWidth_of_le (by decide)
  · rw [zext16_eq_append]
    exact slice_last 0#16 i
  · exact slice_last ((npc s).extractLsb' 28 4) a
  · exact slice_low ((npc s).extractLsb' 28 4) a

end Sys2Proof.Machine

/-! ## The invariant (spec/10_state.md, spec/40_step_cycle.md, spec/60_exceptions.md)

What each part of a step, the fault, the trace event and the effect, does to the invariant; the obligation. -/

namespace Sys2Proof.Machine

/-! ### What keeps the invariant -/

theorem State.Inv.no_exit_of_running {s : State} (h : s.Inv) (hrun : s.run = .running) (n : Int) :
    EnvRequest.exit n ∉ s.requests :=
  h.noExit (fun _ hc => nomatch hrun.symm.trans hc) n

/-- In a running core the clauses on `run` say only that no `Env.Exit` was issued. -/
theorem State.inv_of_running {s : State} (hrun : s.run = .running) (hmem : Memory.wf s.mem = true)
    (hcfg : configValid s.cfg = true) (hexit : ∀ n, EnvRequest.exit n ∉ s.requests)
    (htrace : ∀ e ∈ s.trace, e.honest s.cfg) : s.Inv where
  memory := hmem
  config := hcfg
  halted _ hc := nomatch hrun.symm.trans hc
  noExit _ := hexit
  faultPc _ _ hf := nomatch hrun.symm.trans hf
  trace := htrace

theorem State.Inv.after_fault {s : State} (h : s.Inv) (hrun : s.run = .running) (r : FaultReason) :
    (faultEntry s r).Inv where
  memory := h.memory
  config := h.config
  halted _ hc := nomatch hc
  noExit _ := h.no_exit_of_running hrun
  faultPc _ _ hf := (RunState.faulted.inj hf).2
  trace := h.trace

/-- The event of a fetched instruction says what the fetch found. -/
theorem traceEvent_honest {s : State} {iw : Word} {i : Instr} (hmem : Memory.wf s.mem = true)
    (hfetch : fetchDecode s = .ok (iw, i)) : (traceEvent s iw i).honest s.cfg := by
  obtain ⟨htext, hin, hread, hdecode⟩ := fetchDecode_ok hfetch
  exact ⟨htext, hin, hmem, hread.symm, hdecode⟩

theorem State.Inv.after_trace {s : State} {iw : Word} {i : Instr} (h : s.Inv) (hrun : s.run = .running)
    (hfetch : fetchDecode s = .ok (iw, i)) : (traced s iw i).Inv := by
  unfold traced
  split
  · refine State.inv_of_running hrun h.memory h.config (h.no_exit_of_running hrun) fun e he => ?_
    rcases List.mem_append.mp he with hold | hnew
    · exact h.trace e hold
    · rw [List.mem_singleton.mp hnew]
      exact traceEvent_honest h.memory hfetch
  · exact h

theorem exit_not_mem_append {l : List EnvRequest} {q : EnvRequest} (hl : ∀ n, EnvRequest.exit n ∉ l)
    (hq : ∀ n, q ≠ .exit n) (n : Int) : EnvRequest.exit n ∉ l ++ [q] := by
  simp [hl n, (hq n).symm]

/-- EXIT sets `Halted` and issues `Env.Exit` with the same code. -/
theorem State.Inv.after_exit {s : State} (h : s.Inv) (o : BitVec 9) (target : Word) :
    (((s.setRun (.halted (sext9 o))).request (.exit (sext9 o).toInt)).setPc target).Inv where
  memory := h.memory
  config := h.config
  halted _ hc := by
    obtain rfl := RunState.halted.inj hc
    exact ⟨List.getLast?_concat .., (sext9_toInt o).2⟩
  noExit hno := absurd rfl (hno _)
  faultPc _ _ hf := nomatch hf
  trace := h.trace

/-- Every effect on a running core keeps the invariant: faults and EXIT stop the core, the others leave it running. -/
theorem Effect.keeps_inv {i : Instr} {s t : State} (e : Effect i s t) (h : s.Inv) (hrun : s.run = .running) :
    t.Inv := by
  have hexit := h.no_exit_of_running hrun
  cases e with
  | fault r _ => exact h.after_fault hrun r
  | exit f _ => exact h.after_exit f.offset (npc s)
  | store a v _ ha _ =>
    exact State.inv_of_running hrun (Memory.write_wf v h.memory (inMemory_iff.mp ha)) h.config hexit h.trace
  | output q _ hq _ _ =>
    exact State.inv_of_running hrun h.memory h.config (exit_not_mem_append hexit hq) h.trace
  | input f c rest _ _ ha =>
    exact State.inv_of_running hrun (Memory.write_wf c h.memory (inMemory_iff.mp ha)) h.config
      (exit_not_mem_append hexit nofun) h.trace
  | register _ _ _ _ _ | hiLo _ _ _ | jump _ _ | nop _ | tracing _ _ =>
    exact State.inv_of_running hrun h.memory h.config hexit h.trace

/-! ### The obligation -/

/-- Settles O55: the fetch keeps the invariant by a fault or by an honest event, and then every effect keeps it. -/
theorem stepKeepsInvariant : Obligations.StepKeepsInvariant := by
  intro s t h hstep
  have hrun := (step_next hstep).1
  obtain ⟨r, rfl⟩ | ⟨iw, i, hfetch, e⟩ := step_effect hstep
  · exact h.after_fault hrun r
  · exact e.keeps_inv (h.after_trace hrun hfetch) (by rwa [traced_run])

end Sys2Proof.Machine

/-! ## The step cycle (spec/40_step_cycle.md)

What a step does before execution, what it appends to the trace, and that nothing else depends on the trace. Each part ends
with the obligations it settles. -/

namespace Sys2Proof.Machine

/-! ### The effective address -/

/-- A word's signed reading is congruent to its unsigned one, so a sum may read either operand signed. -/
theorem toNat_add_eq_emod (v w : Word) : ((v + w).toNat : Int) = (v.toNat + w.toInt) % 2 ^ 32 := by
  have hw : w.toInt % 2 ^ 32 = (w.toNat : Int) % 2 ^ 32 := by
    rw [BitVec.toInt_eq_toNat_bmod]
    exact Int.bmod_emod
  rw [BitVec.toNat_add, Int.add_emod, hw, ← Int.add_emod]
  rfl

/-- Settles O6: the sum reads the register unsigned and the offset signed, and the bound is the one of `inMemory`. -/
theorem effectiveAddressLaw : Obligations.EffectiveAddressLaw := by
  intro s r o
  have ⟨hoffset, hlow, hhigh⟩ := sext9_toInt o
  rw [hoffset] at hlow hhigh
  have hea : ((ea s r o).toNat : Int) = ((s.reg r).toNat + o.toInt) % 2 ^ 32 := by
    rw [← hoffset]
    exact toNat_add_eq_emod (s.reg r) (sext9 o)
  refine ⟨hea, hlow, hhigh, ?_⟩
  rw [inMemory_iff, ← hea]
  exact Int.ofNat_lt.symm

/-! ### The guard and the fetch -/

theorem inText_iff {c : ConfigRegs} {a : Word} :
    inText c a = true ↔
      c.textStart.toNat ≤ a.toNat ∧ a.toNat < c.textStart.toNat + c.textLength.toNat := by
  simp [inText]

theorem fetchDecode_of_not_inText {s : State} (h : ¬ inText s.cfg s.pc = true) :
    fetchDecode s = .error (.pcOutOfRange s.pc) := if_neg h

theorem fetchDecode_of_not_inMemory {s : State} (htext : inText s.cfg s.pc = true) (hmem : ¬ inMemory s.pc = true) :
    fetchDecode s = .error (.addressOutOfRange s.pc) := by
  simp only [fetchDecode, htext, hmem, if_true, Bool.false_eq_true, if_false]

theorem fetchDecode_ne_pcOutOfRange {s : State} (h : inText s.cfg s.pc = true) (a : Word) :
    fetchDecode s ≠ .error (.pcOutOfRange a) := by
  unfold fetchDecode
  rw [if_pos h]
  split
  · split <;> nofun
  · nofun

theorem step_of_not_running {s : State} (h : s.run ≠ .running) : step s = .fault .coreStopped := by
  cases hrun : s.run with
  | running => exact absurd hrun h
  | halted c => simp only [step, hrun]
  | faulted r a => simp only [step, hrun]

/-- No instruction raises the fault of the guard. -/
theorem Effect.run_ne_pcOutOfRange {i : Instr} {s t : State} (e : Effect i s t) (hrun : s.run = .running)
    (a b : Word) : t.run ≠ .faulted (.pcOutOfRange a) b := by
  intro ht
  cases e with
  | fault r hr =>
    obtain ⟨rfl, -⟩ := RunState.faulted.inj ht
    exact hr
  | exit f _ => cases ht
  | _ => exact RunState.noConfusion (hrun.symm.trans ht)

/-- Settles O11: inside the segment neither the fetch nor an instruction raises the fault of the guard. -/
theorem guardFaultsOutsideText : Obligations.GuardFaultsOutsideText := by
  refine fun s hrun => ⟨fun hout => ?_, fun hin t a b hstep ht => ?_⟩
  · exact step_of_fetchDecode_error hrun (fetchDecode_of_not_inText (inText_iff.not.mpr hout))
  · obtain ⟨-, ⟨iw, i, -, hexec⟩ | ⟨r, hfetch, rfl⟩⟩ := step_next hstep
    · exact (exec_next hexec).run_ne_pcOutOfRange (by rwa [traced_run]) a b ht
    · obtain ⟨rfl, -⟩ := RunState.faulted.inj ht
      exact fetchDecode_ne_pcOutOfRange (inText_iff.mpr hin) a hfetch

/-- Settles O12: past the guard the fetch checks the array before it reads. -/
theorem fetchFaultsOutsideArray : Obligations.FetchFaultsOutsideArray :=
  fun _ hrun htext hout =>
    step_of_fetchDecode_error hrun (fetchDecode_of_not_inMemory htext (inMemory_iff.not.mpr (Nat.not_lt.mpr hout)))

/-- Settles O13. -/
theorem stoppedCoreHasNoStep : Obligations.StoppedCoreHasNoStep := fun _ => step_of_not_running

/-! ### From the fetched word to its execution -/

theorem traced_of_tracing {s : State} (iw : Word) (i : Instr) (h : s.tracing = true) :
    traced s iw i = s.emit (traceEvent s iw i) := if_pos h

/-- Settles O10: the fetch succeeds, and the trace step appends the event or leaves the state. -/
theorem stepRunsDecodedInstruction : Obligations.StepRunsDecodedInstruction := by
  intro s i hrun htext hmem hdecode
  have hfetch := fetchDecode_of_decode htext hmem rfl hdecode
  refine ⟨fun htracing => step_eq_exec_of_not_tracing hrun htracing hfetch, fun htracing => ?_⟩
  rw [step_of_fetchDecode hrun hfetch, traced_of_tracing _ i htracing]
  rfl

theorem inText_placeInText (c : ConfigRegs) (a : Word) : inText (placeInText c a) a = true := by
  unfold placeInText
  split
  · assumption
  · exact inText_iff.mpr ⟨Nat.le_refl _, Nat.lt_succ_self _⟩

theorem read_placeInMemory {m : Memory} {a : Word} (iw : Word) (hm : Memory.wf m = true) (ha : inMemory a = true) :
    Memory.read (placeInMemory m a iw) a.toNat = iw := by
  rw [placeInMemory, if_pos ha]
  exact Memory.read_write_same iw hm

theorem ofNat_mod_word (w : Nat) : BitVec.ofNat 32 (w % 2 ^ 32) = BitVec.ofNat 32 w :=
  (eq_ofNat_of_toNat (BitVec.toNat_ofNat w 32)).symm

theorem decodeTableWord_eq_some {w : Nat} {i : Instr} (h : decodeTableWord 32 w = some i) :
    decode (BitVec.ofNat 32 w) = .insn i := by
  rw [decodeTableWord, ofNat_mod_word] at h
  split at h
  · rwa [← Option.some.inj h]
  · cases h

theorem withFetchWord_eq_placeWord (s : State) (w : Nat) :
    s.withFetchWord 32 w = placeWord s (BitVec.ofNat 32 w) :=
  congrArg (placeWord s) (ofNat_mod_word w)

/-- Settles O60: the placed word lies at `pc` in the text segment, so the step fetches it. -/
theorem placedWordRunsNext : Obligations.PlacedWordRunsNext := by
  intro s w i hwf hmem hdecode
  have hfetch : fetchDecode (placeWord s (BitVec.ofNat 32 w)) = .ok (BitVec.ofNat 32 w, i) :=
    fetchDecode_of_decode (inText_placeInText s.cfg s.pc) hmem (read_placeInMemory _ hwf hmem)
      (decodeTableWord_eq_some hdecode)
  rw [withFetchWord_eq_placeWord]
  exact ⟨step_of_fetchDecode rfl hfetch, rfl, rfl⟩

/-! ### The trace event -/

theorem mem_nonZeroWindow {m : Memory} (hm : Memory.wf m = true) (low high a : Nat) (v : Word) :
    (a, v) ∈ nonZeroWindow m low high ↔ v ≠ 0 ∧ Memory.read m a = v ∧ low ≤ a ∧ a < high := by
  simp only [nonZeroWindow, List.mem_filter, Memory.mem_iff_read hm, Bool.and_eq_true, decide_eq_true_eq, bne_iff_ne]
  tauto

/-- Executing an instruction emits no event: the trace step alone does. -/
theorem Effect.trace_eq {i : Instr} {s t : State} (e : Effect i s t) : t.trace = s.trace := by
  cases e <;> rfl

theorem step_trace {s t : State} {iw : Word} {i : Instr} (h : step s = .next t) (hfetch : fetchDecode s = .ok (iw, i)) :
    t.trace = (traced s iw i).trace := by
  rw [step_of_fetchDecode (step_next h).1 hfetch] at h
  exact (exec_next h).trace_eq

/-- Settles O14: a fault before execution leaves the trace, and an instruction leaves what the trace step made of it. -/
theorem traceEventPerStep : Obligations.TraceEventPerStep := by
  refine fun s t hstep => ⟨fun htracing => ?_, fun hno => ?_, fun i htracing hfetch => ?_⟩
  · obtain ⟨r, rfl⟩ | ⟨iw, i, -, e⟩ := step_effect hstep
    · rfl
    · rw [e.trace_eq, traced_of_not_tracing iw i htracing]
  · obtain ⟨r, rfl⟩ | ⟨iw, i, hfetch, -⟩ := step_effect hstep
    · rfl
    · obtain ⟨-, -, rfl, -⟩ := fetchDecode_ok hfetch
      exact absurd hfetch (hno i)
  · refine ⟨traceEvent s (Memory.read s.mem s.pc.toNat) i, ?_, rfl, rfl, rfl, rfl, rfl, rfl, rfl, fun hwf a v =>
      ⟨mem_nonZeroWindow hwf _ _ a v, ?_⟩⟩
    · rw [step_trace hstep hfetch, traced_of_tracing _ i htracing, State.emit_trace]
    · rw [← Nat.lt_succ_iff (n := s.cfg.stackBottom.toNat)]
      exact mem_nonZeroWindow hwf _ _ a v

/-! ### Independence of the trace

Every operation answers the same, up to the tracing flag and the trace, in a state and in that state without its trace. The
two states agree by definition on all that an operation reads, so an operation that reads no cell needs no argument. -/

theorem readCell_untraced {s : State} {a : Word} {k k' : Word → Result}
    (h : ∀ v, untracedResult (k v) = untracedResult (k' v)) :
    untracedResult (readCell (untraced s) a k) = untracedResult (readCell s a k') := by
  by_cases ha : inMemory a = true
  · rw [readCell_inside k ha, readCell_inside k' ha]
    exact h _
  · rw [readCell_outside k ha, readCell_outside k' ha]
    rfl

theorem readTop_untraced {s : State} {k k' : Word → Result}
    (h : ∀ v, untracedResult (k v) = untracedResult (k' v)) :
    untracedResult (readTop (untraced s) k) = untracedResult (readTop s k') :=
  readCell_untraced h

theorem writeCell_untraced (s : State) (a v : Word) :
    untracedResult (writeCell (untraced s) a v) = untracedResult (writeCell s a v) := by
  by_cases ha : inMemory a = true
  · rw [writeCell_inside v ha, writeCell_inside v ha]
    rfl
  · rw [writeCell_outside v ha, writeCell_outside v ha]
    rfl

theorem branch_untraced (s : State) (taken : Bool) (immed : BitVec 16) :
    untracedResult (branch (untraced s) taken immed) = untracedResult (branch s taken immed) := by
  cases taken <;> rfl

theorem execDiv_untraced (f : OthcFields) (s : State) :
    untracedResult (execDiv f (untraced s)) = untracedResult (execDiv f s) := by
  refine readTop_untraced fun _ => readCell_untraced fun v => ?_
  by_cases hv : v = 0
  · rw [if_pos hv, if_pos hv]
    rfl
  · rw [if_neg hv, if_neg hv]
    rfl

theorem execPstr_untraced (f : SysFields) (s : State) :
    untracedResult (execPstr f (untraced s)) = untracedResult (execPstr f s) := by
  have hstr : strAt (untraced s) (ea (untraced s) f.reg f.offset) = strAt s (ea s f.reg f.offset) := rfl
  unfold execPstr
  rw [hstr]
  cases strAt s (ea s f.reg f.offset) <;> rfl

theorem execRch_untraced (f : SysFields) (s : State) :
    untracedResult (execRch f (untraced s)) = untracedResult (execRch f s) := by
  have hea : ea (untraced s) f.reg f.offset = ea s f.reg f.offset := rfl
  have hinput : (untraced s).input = s.input := rfl
  unfold execRch
  rw [hea, hinput]
  split
  · cases nextChar s.input with
    | none => rfl
    | some answer => exact writeCell_untraced ((s.setInput answer.2).request .inChar) _ answer.1
  · rfl

theorem exec_untraced (i : Instr) (s : State) :
    untracedResult (exec i (untraced s)) = untracedResult (exec i s) := by
  cases i with
  | nop f | cpr f | ari f | sri f | jrel f | jmpa f | call f | rtn f | exit f | stra f | notr f => rfl
  | add f | sub f | and f | bor f | nor f | xor f =>
    exact readTop_untraced fun _ => readCell_untraced fun _ => writeCell_untraced s _ _
  | sll f | srl f => exact readTop_untraced fun _ => writeCell_untraced s _ _
  | cpw f | neg f | addi f | andi f | bori f | nori f | xori f =>
    exact readCell_untraced fun _ => writeCell_untraced s _ _
  | swr f | sca f | lit f | cfhi f | cflo f => exact writeCell_untraced s _ _
  | lwr f | jmp f | csi f | pint f | pch f =>
    simp only [exec, execLwr, execJmp, execCsi, execPint, execPch]
    refine readCell_untraced fun _ => ?_
    rfl
  | mul f =>
    refine readTop_untraced fun _ => readCell_untraced fun _ => ?_
    rfl
  | beq f | bne f => exact readTop_untraced fun _ => readCell_untraced fun _ => branch_untraced s _ _
  | bgez f | bgtz f | blez f | bltz f => exact readCell_untraced fun _ => branch_untraced s _ _
  | div f => exact execDiv_untraced f s
  | pstr f => exact execPstr_untraced f s
  | rch f => exact execRch_untraced f s

theorem untraced_traced (s : State) (iw : Word) (i : Instr) : untraced (traced s iw i) = untraced s := by
  unfold traced
  split <;> rfl

theorem fetchDecode_untraced (s : State) : fetchDecode (untraced s) = fetchDecode s := rfl

theorem step_untraced (s : State) : untracedResult (step (untraced s)) = untracedResult (step s) := by
  by_cases hrun : s.run = .running
  · have hrun' : (untraced s).run = .running := hrun
    cases hfetch : fetchDecode s with
    | ok p =>
      obtain ⟨iw, i⟩ := p
      calc untracedResult (step (untraced s))
          = untracedResult (exec i (untraced s)) := by
            rw [step_eq_exec_of_not_tracing hrun' rfl ((fetchDecode_untraced s).trans hfetch)]
        _ = untracedResult (exec i (untraced (traced s iw i))) := by rw [untraced_traced]
        _ = untracedResult (exec i (traced s iw i)) := exec_untraced i _
        _ = untracedResult (step s) := by rw [step_of_fetchDecode hrun hfetch]
    | error r =>
      rw [step_of_fetchDecode_error hrun hfetch,
        step_of_fetchDecode_error hrun' ((fetchDecode_untraced s).trans hfetch)]
      rfl
  · rw [step_of_not_running hrun, step_of_not_running (s := untraced s) hrun]

/-- The step lemma of the simulation: states that agree up to the trace have outcomes that do. -/
theorem step_eq_of_untraced_eq {s s' : State} (h : untraced s = untraced s') :
    untracedResult (step s) = untracedResult (step s') := by
  rw [← step_untraced s, h, step_untraced]

/-- Outcomes that agree up to the trace are next states that do, or the same stop. -/
theorem untracedResult_eq_cases {r r' : Result} (h : untracedResult r = untracedResult r') :
    (∃ t t', r = .next t ∧ r' = .next t' ∧ untraced t = untraced t') ∨ (r = r' ∧ ∀ t, r ≠ .next t) := by
  match r, r', h with
  | .next t, .next t', h => exact .inl ⟨t, t', rfl, rfl, Host.Outcome.next.inj h⟩
  | .fault _, .fault _, h => exact .inr ⟨congrArg Host.Outcome.fault (Host.Outcome.fault.inj h), nofun⟩
  | .refused _, .refused _, h => exact .inr ⟨congrArg Host.Outcome.refused (Host.Outcome.refused.inj h), nofun⟩

theorem run_succ_of_next {s t : State} (k : Nat) (h : step s = .next t) : core.run (k + 1) s = core.run k t := by
  simp only [Host.Core.run, core, h]

theorem run_succ_of_stop {s : State} (k : Nat) (h : ∀ t, step s ≠ .next t) : core.run (k + 1) s = step s := by
  cases hstep : step s with
  | next t => exact absurd hstep (h t)
  | fault r | refused r => simp only [Host.Core.run, core, hstep]

/-- Settles O54, by induction on the length of the run: the first steps agree up to the trace, so both runs stop there with
the same stop or go on from states that agree. -/
theorem tracingDoesNotInterfere : Obligations.TracingDoesNotInterfere := by
  intro k
  induction k with
  | zero => exact fun s s' h => congrArg Host.Outcome.next h
  | succ k ih =>
    intro s s' h
    obtain ⟨t, t', ht, ht', hagree⟩ | ⟨heq, hstop⟩ := untracedResult_eq_cases (step_eq_of_untraced_eq h)
    · rw [run_succ_of_next k ht, run_succ_of_next k ht']
      exact ih t t' hagree
    · rw [run_succ_of_stop k hstop, run_succ_of_stop k (heq ▸ hstop), heq]

end Sys2Proof.Machine

/-! ## The computational instructions (spec/41_computational.md)

Five layers: the encodings; the store or precise fault of a cell access; the six instructions on `top` and a source cell;
those on a source cell or address alone; exact arithmetic. Then the obligations. -/

namespace Sys2Proof

/-! ### Encodings -/

theorem encodedFunc_of_compWord {i : Instr} {f : CompFields} {func : BitVec 4} (h : encode i = compWord f func) :
    encodedFunc i 0 func := by
  rw [encodedFunc, h]
  exact ⟨opField_compWord f func, funcField_compWord f func⟩

theorem encodedFunc_of_othcWord {i : Instr} {f : OthcFields} {func : BitVec 4} (h : encode i = othcWord f func) :
    encodedFunc i 1 func := by
  rw [encodedFunc, h]
  exact ⟨opField_othcWord f func, funcField_othcWord f func⟩

end Sys2Proof

namespace Sys2Proof.Machine

/-! ### Stores and faults of a cell access -/

theorem readCell_eq_faulted {s : State} {a : Word} (k : Word → Result) (h : inMemory a = false) :
    readCell s a k = faulted s (.addressOutOfRange a) :=
  readCell_outside k (Bool.eq_false_iff.mp h)

theorem writeCell_eq_faulted {s : State} {a : Word} (v : Word) (h : inMemory a = false) :
    writeCell s a v = faulted s (.addressOutOfRange a) :=
  writeCell_outside v (Bool.eq_false_iff.mp h)

/-- What an instruction that stored a word leaves in the cell it stored to. -/
theorem read_of_writeCell {s t : State} {a v : Word} (hwf : Memory.wf s.mem = true) (ha : inMemory a = true)
    (h : writeCell s a v = .next t) : Memory.read t.mem a.toNat = v := by
  rw [writeCell_inside v ha] at h
  obtain rfl := next_inj h
  exact Memory.read_write_same v hwf

/-! ### `top` and a source cell -/

section TopBinary

variable {f : CompFields} {s : State}

theorem topBinary_inside (op : Word → Word → Word) (hsp : inMemory (s.reg .sp) = true)
    (hsrc : inMemory (ea s f.rs f.os) = true) :
    topBinary s f op = writeCell s (ea s f.rt f.ot)
      (op (Memory.read s.mem (s.reg .sp).toNat) (Memory.read s.mem (ea s f.rs f.os).toNat)) := by
  rw [topBinary, readTop, readCell_inside _ hsp, readCell_inside _ hsrc]

theorem topBinary_top_outside (op : Word → Word → Word) (hsp : inMemory (s.reg .sp) = false) :
    topBinary s f op = faulted s (.addressOutOfRange (s.reg .sp)) := by
  rw [topBinary, readTop, readCell_eq_faulted _ hsp]

theorem topBinary_source_outside (op : Word → Word → Word) (hsp : inMemory (s.reg .sp) = true)
    (hsrc : inMemory (ea s f.rs f.os) = false) :
    topBinary s f op = faulted s (.addressOutOfRange (ea s f.rs f.os)) := by
  rw [topBinary, readTop, readCell_inside _ hsp, readCell_eq_faulted _ hsrc]

/-- The six differ in the operation alone. -/
theorem exec_eq_topBinary (s : State) {i : Instr}
    (hi : i ∈ ([.add f, .sub f, .and f, .bor f, .nor f, .xor f] : List Instr)) :
    ∃ op, exec i s = topBinary s f op := by
  simp only [List.mem_cons, List.not_mem_nil, or_false] at hi
  obtain rfl | rfl | rfl | rfl | rfl | rfl := hi <;> exact ⟨_, rfl⟩

end TopBinary

/-! ### A source cell or a source address alone -/

theorem exec_cpw (f : CompFields) (s : State) :
    exec (.cpw f) s = readCell s (ea s f.rs f.os) fun v => writeCell s (ea s f.rt f.ot) v := rfl

theorem exec_neg (f : CompFields) (s : State) :
    exec (.neg f) s = readCell s (ea s f.rs f.os) fun v => writeCell s (ea s f.rt f.ot) (0 - v) := rfl

theorem exec_lwr (f : CompFields) (s : State) :
    exec (.lwr f) s = readCell s (ea s f.rs f.os) fun v => complete (s.setReg f.rt v) := rfl

theorem exec_sca (f : CompFields) (s : State) :
    exec (.sca f) s = writeCell s (ea s f.rt f.ot) (ea s f.rs f.os) := rfl

theorem exec_eq_readCell_writeCell (s : State) {f : CompFields} {i : Instr} (hi : i ∈ ([.cpw f, .neg f] : List Instr)) :
    ∃ op : Word → Word,
      exec i s = readCell s (ea s f.rs f.os) fun v => writeCell s (ea s f.rt f.ot) (op v) := by
  obtain rfl | rfl := List.mem_pair.mp hi
  · exact ⟨id, exec_cpw f s⟩
  · exact ⟨fun v => 0 - v, exec_neg f s⟩

/-! ### Exact arithmetic -/

theorem toInt_add_of_bounds {v w : Word} (hlow : -2 ^ 31 ≤ v.toInt + w.toInt) (hhigh : v.toInt + w.toInt < 2 ^ 31) :
    (v + w).toInt = v.toInt + w.toInt := by
  rw [BitVec.toInt_add]
  exact Int.bmod_eq_of_le hlow hhigh

theorem toInt_sub_of_bounds {v w : Word} (hlow : -2 ^ 31 ≤ v.toInt - w.toInt) (hhigh : v.toInt - w.toInt < 2 ^ 31) :
    (v - w).toInt = v.toInt - w.toInt := by
  rw [BitVec.toInt_sub]
  exact Int.bmod_eq_of_le hlow hhigh

theorem toNat_sub_eq_emod (v w : Word) : ((v - w).toNat : Int) = ((v.toNat : Int) - w.toNat) % 2 ^ 32 := by
  have hw := w.isLt
  rw [BitVec.toNat_sub]
  omega

/-- The least word is the one whose negation is out of range, and it is its own negation. -/
theorem zero_sub_exact_unless_least (v : Word) :
    (v.toInt ≠ -2 ^ 31 → (0 - v).toInt = -v.toInt) ∧ (v.toInt = -2 ^ 31 → 0 - v = v) := by
  have hmin : v.toInt = -2 ^ 31 ↔ v = BitVec.intMin 32 := BitVec.toInt_inj (y := BitVec.intMin 32)
  have hneg : 0 - v = -v := BitVec.zero_sub v
  rw [hneg, ne_eq, hmin]
  refine ⟨BitVec.toInt_neg_of_ne_intMin, ?_⟩
  rintro rfl
  exact BitVec.neg_intMin

/-! ### The obligations -/

/-- Settles O16. -/
theorem nopOnlyAdvances : Obligations.NopOnlyAdvances :=
  fun _ _ => ⟨encodedFunc_of_compWord rfl, rfl⟩

/-- Settles O17: the six share the reads of `top` and the source cell and differ in the word they then store. -/
theorem topOperandInstructions : Obligations.TopOperandInstructions := by
  intro f s sp src dst v1 v2 stored allFault
  refine ⟨?_, fun hsp hsrc hdst => ?_, fun hsp i hi => ?_, fun hsp hsrc i hi => ?_, fun hsp hsrc hdst i hi => ?_⟩
  · refine ⟨?_, ?_, ?_, ?_, ?_, ?_⟩ <;> exact encodedFunc_of_compWord rfl
  · have hstore (op : Word → Word → Word) : topBinary s f op = stored (op v1 v2) :=
      (topBinary_inside op hsp hsrc).trans (writeCell_inside _ hdst)
    exact ⟨hstore _, hstore _, hstore _, hstore _, hstore _, hstore _⟩
  · obtain ⟨op, hop⟩ := exec_eq_topBinary s hi
    exact hop.trans (topBinary_top_outside op hsp)
  · obtain ⟨op, hop⟩ := exec_eq_topBinary s hi
    exact hop.trans (topBinary_source_outside op hsp hsrc)
  · obtain ⟨op, hop⟩ := exec_eq_topBinary s hi
    exact hop.trans ((topBinary_inside op hsp hsrc).trans (writeCell_eq_faulted _ hdst))

/-- Settles O18: the two share the read of the source cell and differ in the word they then store. -/
theorem copyAndNegateInstructions : Obligations.CopyAndNegateInstructions := by
  intro f s src dst v stored allFault
  refine ⟨?_, fun hsrc hdst => ?_, fun hsrc i hi => ?_, fun hsrc hdst i hi => ?_⟩
  · exact ⟨encodedFunc_of_compWord rfl, encodedFunc_of_compWord rfl⟩
  · rw [exec_cpw, exec_neg, readCell_inside _ hsrc, readCell_inside _ hsrc]
    exact ⟨writeCell_inside _ hdst, writeCell_inside _ hdst⟩
  · obtain ⟨op, hop⟩ := exec_eq_readCell_writeCell s hi
    exact hop.trans (readCell_eq_faulted _ hsrc)
  · obtain ⟨op, hop⟩ := exec_eq_readCell_writeCell s hi
    exact hop.trans ((readCell_inside _ hsrc).trans (writeCell_eq_faulted _ hdst))

/-- Settles O19. -/
theorem registerInstructions : Obligations.RegisterInstructions :=
  ⟨fun _ _ => ⟨encodedFunc_of_compWord rfl, rfl⟩,
    fun _ _ => ⟨encodedFunc_of_othcWord rfl, rfl, encodedFunc_of_othcWord rfl, rfl⟩⟩

/-- Settles O20: the register is written only once the source cell has been read. -/
theorem loadWordRegister : Obligations.LoadWordRegister := by
  intro f s src
  rw [exec_lwr]
  exact ⟨encodedFunc_of_compWord rfl, readCell_inside _, readCell_eq_faulted _⟩

/-- Settles O21: the only address checked is the target's. -/
theorem storeRegisterAndAddress : Obligations.StoreRegisterAndAddress := by
  intro f s dst stored
  refine ⟨encodedFunc_of_compWord rfl, encodedFunc_of_compWord rfl, fun hdst => ?_, fun hdst i hi => ?_⟩
  · rw [exec_swr, exec_sca]
    exact ⟨writeCell_inside _ hdst, writeCell_inside _ hdst⟩
  · obtain rfl | rfl := List.mem_pair.mp hi
    · exact (exec_swr f s).trans (writeCell_eq_faulted _ hdst)
    · exact (exec_sca f s).trans (writeCell_eq_faulted _ hdst)

/-- Settles O22: the target cell reads as the word stored, and that word's readings are those of the exact arithmetic. -/
theorem exactSumsInRange : Obligations.ExactSumsInRange := by
  intro f s t hwf hsp hsrc hdst v1 v2 result
  have htop {op : Word → Word → Word} (h : topBinary s f op = .next t) : result = op v1 v2 :=
    read_of_writeCell hwf hdst ((topBinary_inside op hsp hsrc).symm.trans h)
  refine ⟨fun hadd => ?_, fun hsub => ?_, fun hneg => ?_, fun hsca => ?_⟩
  · rw [htop hadd]
    exact ⟨toInt_add_of_bounds, BitVec.toNat_add v1 v2⟩
  · rw [htop hsub]
    exact ⟨toInt_sub_of_bounds, toNat_sub_eq_emod v1 v2⟩
  · rw [exec_neg, readCell_inside _ hsrc] at hneg
    have hresult : result = 0 - v2 := read_of_writeCell hwf hdst hneg
    rw [hresult]
    exact zero_sub_exact_unless_least v2
  · rw [exec_sca] at hsca
    have hresult : result = ea s f.rs f.os := read_of_writeCell hwf hdst hsca
    rw [hresult]
    exact (effectiveAddressLaw s f.rs f.os).1

/-- Settles O41, by the frame of the effects: each of the ten stores to the target cell and has no destination register. -/
theorem computationalStoreFrame : Obligations.ComputationalStoreFrame := by
  intro f s t i hi hexec
  have hstorer : writesRegsAndCellsOnly i = true ∧ storeTarget i s = some (ea s f.rt f.ot) ∧ regTarget i = none := by
    revert i
    simp [writesRegsAndCellsOnly, storeTarget, regTarget]
  obtain ⟨honly, hstore, hreg⟩ := hstorer
  have hframe := (exec_next hexec).frame honly
  rwa [hstore, hreg] at hframe

end Sys2Proof.Machine

/-! ## The other computational instructions (spec/42_other_computational.md)

Four layers: the reads of `top` and of `top` and a cell; the equation of each instruction, and the shape that instructions
with the same faults share; the exact arithmetic of products, quotients and shifts; what an instruction that stores, MUL or
DIV leaves unchanged. Then the obligations. -/

namespace Sys2Proof.Machine

/-! ### `top` and a cell -/

section TopAndCell

variable {s : State} {a : Word}

theorem readTop_inside (k : Word → Result) (hsp : inMemory (s.reg .sp) = true) :
    readTop s k = k (Memory.read s.mem (s.reg .sp).toNat) :=
  readCell_inside k hsp

theorem readTop_eq_faulted (k : Word → Result) (hsp : inMemory (s.reg .sp) = false) :
    readTop s k = faulted s (.addressOutOfRange (s.reg .sp)) :=
  readCell_eq_faulted k hsp

theorem readTop_readCell_inside (k : Word → Word → Result) (hsp : inMemory (s.reg .sp) = true)
    (ha : inMemory a = true) :
    (readTop s fun v1 => readCell s a (k v1)) =
      k (Memory.read s.mem (s.reg .sp).toNat) (Memory.read s.mem a.toNat) := by
  rw [readTop_inside _ hsp, readCell_inside _ ha]

theorem readTop_readCell_eq_faulted (k : Word → Word → Result) (hsp : inMemory (s.reg .sp) = true)
    (ha : inMemory a = false) :
    (readTop s fun v1 => readCell s a (k v1)) = faulted s (.addressOutOfRange a) := by
  rw [readTop_inside _ hsp, readCell_eq_faulted _ ha]

end TopAndCell

/-! ### The equation of each instruction -/

section Equations

variable (f : OthcFields) (s : State)

theorem exec_lit : exec (.lit f) s = writeCell s (ea s f.reg f.offset) (sext12 f.arg) := rfl

theorem exec_cfhi : exec (.cfhi f) s = writeCell s (ea s f.reg f.offset) s.hi := rfl

theorem exec_cflo : exec (.cflo f) s = writeCell s (ea s f.reg f.offset) s.lo := rfl

theorem exec_mul : exec (.mul f) s =
    readTop s fun v1 => readCell s (ea s f.reg f.offset) fun v2 =>
      complete (s.setHiLo (mulHi v1 v2) (mulLo v1 v2)) := rfl

theorem exec_div : exec (.div f) s =
    readTop s fun v1 => readCell s (ea s f.reg f.offset) fun v2 =>
      if v2 = 0 then raise s .divideByZero else complete (s.setHiLo (divRem v1 v2) (divQuot v1 v2)) := rfl

theorem exec_sll : exec (.sll f) s =
    readTop s fun v => writeCell s (ea s f.reg f.offset) (shl v (zext12 f.arg)) := rfl

theorem exec_srl : exec (.srl f) s =
    readTop s fun v => writeCell s (ea s f.reg f.offset) (shr v (zext12 f.arg)) := rfl

theorem exec_jmp : exec (.jmp f) s = readCell s (ea s f.reg f.offset) fun t => transferTo s t := rfl

theorem exec_csi : exec (.csi f) s =
    readCell s (ea s f.reg f.offset) fun t => transferTo (s.setReg .ra (npc s)) t := rfl

end Equations

/-! ### What instructions with the same faults share -/

section SharedShapes

variable {f : OthcFields} {i : Instr} (s : State)

theorem exec_eq_writeCell (hi : i ∈ ([.lit f, .cfhi f, .cflo f] : List Instr)) :
    ∃ v, exec i s = writeCell s (ea s f.reg f.offset) v := by
  simp only [List.mem_cons, List.not_mem_nil, or_false] at hi
  obtain rfl | rfl | rfl := hi
  · exact ⟨_, exec_lit f s⟩
  · exact ⟨_, exec_cfhi f s⟩
  · exact ⟨_, exec_cflo f s⟩

theorem exec_eq_readTop_writeCell (hi : i ∈ ([.sll f, .srl f] : List Instr)) :
    ∃ op : Word → Word, exec i s = readTop s fun v => writeCell s (ea s f.reg f.offset) (op v) := by
  obtain rfl | rfl := List.mem_pair.mp hi
  · exact ⟨fun v => shl v (zext12 f.arg), exec_sll f s⟩
  · exact ⟨fun v => shr v (zext12 f.arg), exec_srl f s⟩

theorem exec_eq_readCell (hi : i ∈ ([.jmp f, .csi f] : List Instr)) :
    ∃ k, exec i s = readCell s (ea s f.reg f.offset) k := by
  obtain rfl | rfl := List.mem_pair.mp hi
  · exact ⟨_, exec_jmp f s⟩
  · exact ⟨_, exec_csi f s⟩

end SharedShapes

/-! ### Exact products, quotients and shifts -/

section ExactUnsigned

variable (v1 v2 : Word)

/-- The product of two words is below `2^64`, so neither half of it is narrowed. -/
theorem mulHi_mulLo_toNat : (mulHi v1 v2).toNat * 2 ^ 32 + (mulLo v1 v2).toNat = v1.toNat * v2.toNat := by
  have hbound : v1.toNat * v2.toNat < 2 ^ 32 * 2 ^ 32 := Nat.mul_lt_mul'' v1.isLt v2.isLt
  have hhi : (mulHi v1 v2).toNat = v1.toNat * v2.toNat / 2 ^ 32 :=
    (BitVec.toNat_ofNat ..).trans (Nat.mod_eq_of_lt (Nat.div_lt_of_lt_mul hbound))
  have hlo : (mulLo v1 v2).toNat = v1.toNat * v2.toNat % 2 ^ 32 := BitVec.toNat_ofNat ..
  rw [hhi, hlo]
  exact Nat.div_add_mod' ..

theorem divRem_toNat : (divRem v1 v2).toNat = v1.toNat % v2.toNat :=
  (BitVec.toNat_ofNat ..).trans (Nat.mod_eq_of_lt (Nat.mod_lt_of_lt v1.isLt))

theorem divQuot_toNat : (divQuot v1 v2).toNat = v1.toNat / v2.toNat :=
  (BitVec.toNat_ofNat ..).trans (Nat.mod_eq_of_lt (Nat.lt_of_le_of_lt (Nat.div_le_self ..) v1.isLt))

variable (v : Word)

theorem shl_toNat (n : Nat) : (shl v n).toNat = v.toNat * 2 ^ n % 2 ^ 32 := by
  rw [shl, BitVec.toNat_shiftLeft, Nat.shiftLeft_eq]

theorem shr_toNat (n : Nat) : (shr v n).toNat = v.toNat / 2 ^ n := by
  rw [shr, BitVec.toNat_ushiftRight, Nat.shiftRight_eq_div_pow]

theorem shl_eq_zero {n : Nat} (hn : 32 ≤ n) : shl v n = 0 := BitVec.shiftLeft_eq_zero hn

theorem shr_eq_zero {n : Nat} (hn : 32 ≤ n) : shr v n = 0 := BitVec.ushiftRight_eq_zero hn

end ExactUnsigned

/-! ### Frames -/

section Frames

variable {i : Instr} {s t : State}

/-- An instruction with a store target writes that cell alone; RCH, which writes more, is given none. -/
theorem storeTarget_eq_some {a : Word} (hs : storeTarget i s = some a) :
    writesRegsAndCellsOnly i = true ∧ regTarget i = none := by
  revert hs
  cases i <;> simp [storeTarget, writesRegsAndCellsOnly, regTarget]

/-- `Effect.frame` for an instruction that stores a cell. -/
theorem exec_frame_of_store {a : Word} (h : exec i s = .next t) (hs : storeTarget i s = some a) :
    Frame [] [a.toNat] s t := by
  obtain ⟨honly, hreg⟩ := storeTarget_eq_some hs
  have hframe := (exec_next h).frame honly
  rwa [hs, hreg] at hframe

theorem exec_mul_or_div_next {f : OthcFields} (hi : i ∈ ([.mul f, .div f] : List Instr)) (h : exec i s = .next t) :
    (∃ r, t = faultEntry s r) ∨ ∃ hi lo, t = (s.setHiLo hi lo).setPc (npc s) := by
  obtain rfl | rfl := List.mem_pair.mp hi
  · obtain ⟨a, -, ht⟩ | hdone := execMul_next h
    · exact .inl ⟨_, ht⟩
    · exact .inr hdone
  · obtain ⟨a, -, ht⟩ | ht | hdone := execDiv_next h
    · exact .inl ⟨_, ht⟩
    · exact .inl ⟨_, ht⟩
    · exact .inr hdone

end Frames

/-! ### The obligations -/

/-- Settles O42, by the frame of the effects: each of the five stores to the addressed cell. -/
theorem otherComputationalStoreFrame : Obligations.OtherComputationalStoreFrame := by
  intro f s t i hi hexec
  have hstore : storeTarget i s = some (ea s f.reg f.offset) := by
    revert i
    simp [storeTarget]
  exact exec_frame_of_store hexec hstore

/-- Settles O45: the two end in a precise fault or with `HI`, `LO` and `pc` replaced. -/
theorem multiplyDivideFrame : Obligations.MultiplyDivideFrame := by
  intro f s t i hi hexec
  obtain ⟨r, rfl⟩ | ⟨hi, lo, rfl⟩ := exec_mul_or_div_next hi hexec
  · obtain ⟨hregs, hcells, -, hrest⟩ := frame_faultEntry [] [] s r
    exact ⟨hregs, hcells, hrest⟩
  · exact ⟨fun _ _ => rfl, fun _ _ => rfl, rfl, ⟨rfl, rfl⟩, ⟨rfl, rfl, rfl⟩, .inl rfl⟩

/-- Settles O23: the three share the store and its fault and differ in the word stored. -/
theorem literalAndHiLoStores : Obligations.LiteralAndHiLoStores := by
  intro f s dst stored
  refine ⟨encodedFunc_of_othcWord rfl, encodedFunc_of_othcWord rfl, encodedFunc_of_othcWord rfl, fun hdst => ?_,
    fun hdst i hi => ?_⟩
  · rw [exec_lit, exec_cfhi, exec_cflo]
    exact ⟨writeCell_inside _ hdst, writeCell_inside _ hdst, writeCell_inside _ hdst⟩
  · obtain ⟨v, hv⟩ := exec_eq_writeCell s hi
    exact hv.trans (writeCell_eq_faulted v hdst)

/-- Settles O24: the two halves of the product are put together again by `mulHi_mulLo_toNat`. -/
theorem multiplyWideResult : Obligations.MultiplyWideResult := by
  intro f s sp cell v1 v2
  rw [exec_mul]
  exact ⟨encodedFunc_of_othcWord rfl,
    fun hsp hcell => ⟨mulHi v1 v2, mulLo v1 v2, mulHi_mulLo_toNat v1 v2, readTop_readCell_inside _ hsp hcell⟩,
    readTop_eq_faulted _, readTop_readCell_eq_faulted _⟩

/-- Settles O25: both reads come before the test of the divisor, and `HI` and `LO` are written only after it. -/
theorem divideRemainderQuotient : Obligations.DivideRemainderQuotient := by
  intro f s sp cell v1 v2
  rw [exec_div]
  refine ⟨encodedFunc_of_othcWord rfl, fun hsp hcell hv2 => ?_, readTop_eq_faulted _, readTop_readCell_eq_faulted _,
    fun hsp hcell hv2 => ?_⟩
  · have hpos : 0 < v2.toNat := BitVec.toNat_pos_of_ne_zero hv2
    refine ⟨divRem v1 v2, divQuot v1 v2, divRem_toNat v1 v2, divQuot_toNat v1 v2, ?_, ?_, ?_⟩
    · rw [divRem_toNat, divQuot_toNat]
      exact (Nat.div_add_mod ..).symm
    · rw [divRem_toNat]
      exact Nat.mod_lt _ hpos
    · exact (readTop_readCell_inside _ hsp hcell).trans (if_neg hv2)
  · exact (readTop_readCell_inside _ hsp hcell).trans (if_pos hv2)

/-- Settles O26: the two share the read of `top`, the store and their faults, and differ in the shift. -/
theorem shiftInstructions : Obligations.ShiftInstructions := by
  intro f s sp dst v stored allFault
  refine ⟨encodedFunc_of_othcWord rfl, encodedFunc_of_othcWord rfl, fun hsp hdst => ?_, fun hsp i hi => ?_,
    fun hsp hdst i hi => ?_⟩
  · rw [exec_sll, exec_srl, readTop_inside _ hsp, readTop_inside _ hsp]
    exact ⟨⟨shl v f.arg.toNat, shl_toNat v _, shl_eq_zero v, writeCell_inside _ hdst⟩,
      ⟨shr v f.arg.toNat, shr_toNat v _, shr_eq_zero v, writeCell_inside _ hdst⟩⟩
  · obtain ⟨op, hop⟩ := exec_eq_readTop_writeCell s hi
    exact hop.trans (readTop_eq_faulted _ hsp)
  · obtain ⟨op, hop⟩ := exec_eq_readTop_writeCell s hi
    exact hop.trans ((readTop_inside _ hsp).trans (writeCell_eq_faulted _ hdst))

/-- Settles O27: the cell is read, at the address the old registers give, before the link is written. -/
theorem indirectJumpAndCall : Obligations.IndirectJumpAndCall := by
  intro f s cell
  refine ⟨encodedFunc_of_othcWord rfl, encodedFunc_of_othcWord rfl, fun hcell => ?_, fun hcell i hi => ?_⟩
  · rw [exec_jmp, exec_csi]
    exact ⟨readCell_inside _ hcell, readCell_inside _ hcell⟩
  · obtain ⟨k, hk⟩ := exec_eq_readCell s hi
    exact hk.trans (readCell_eq_faulted k hcell)

/-- Settles O28. -/
theorem relativeJump : Obligations.RelativeJump :=
  fun _ _ => ⟨encodedFunc_of_othcWord rfl, rfl⟩

end Sys2Proof.Machine

/-! ## The immediate instructions (spec/43_immediate.md)

Five layers: the encoding; the equation of each instruction; the shape that instructions with the same faults share; the
update of a cell and the branch on one; the tests against zero and bit 31. Then the obligations. -/

namespace Sys2Proof

/-! ### Encodings -/

theorem encodedOp_of_immWord {i : Instr} {f : ImmFields} {op : BitVec 4} (h : encode i = immWord op f) :
    encodedOp i op := by
  rw [encodedOp, h]
  exact opField_immWord op f

end Sys2Proof

namespace Sys2Proof.Machine

/-! ### The equation of each instruction -/

section Equations

variable (f : ImmFields) (s : State)

theorem exec_addi : exec (.addi f) s = updateCell s f fun v => v + sext16 f.immed := rfl

theorem exec_andi : exec (.andi f) s = updateCell s f fun v => v &&& zext16 f.immed := rfl

theorem exec_bori : exec (.bori f) s = updateCell s f fun v => v ||| zext16 f.immed := rfl

theorem exec_nori : exec (.nori f) s = updateCell s f fun v => norWord v (zext16 f.immed) := rfl

theorem exec_xori : exec (.xori f) s = updateCell s f fun v => v ^^^ zext16 f.immed := rfl

theorem exec_beq : exec (.beq f) s =
    readTop s fun v1 => readCell s (ea s f.reg f.offset) fun v2 => branch s (v1 == v2) f.immed := rfl

theorem exec_bne : exec (.bne f) s =
    readTop s fun v1 => readCell s (ea s f.reg f.offset) fun v2 => branch s (v1 != v2) f.immed := rfl

theorem exec_bgez : exec (.bgez f) s = branchOnCell s f isGez := rfl

theorem exec_bgtz : exec (.bgtz f) s = branchOnCell s f isGtz := rfl

theorem exec_blez : exec (.blez f) s = branchOnCell s f isLez := rfl

theorem exec_bltz : exec (.bltz f) s = branchOnCell s f isLtz := rfl

end Equations

/-! ### What instructions with the same faults share -/

section SharedShapes

variable {f : ImmFields} {i : Instr} (s : State)

theorem exec_eq_updateCell (hi : i ∈ ([.addi f, .andi f, .bori f, .nori f, .xori f] : List Instr)) :
    ∃ op, exec i s = updateCell s f op := by
  simp only [List.mem_cons, List.not_mem_nil, or_false] at hi
  obtain rfl | rfl | rfl | rfl | rfl := hi
  · exact ⟨_, exec_addi f s⟩
  · exact ⟨_, exec_andi f s⟩
  · exact ⟨_, exec_bori f s⟩
  · exact ⟨_, exec_nori f s⟩
  · exact ⟨_, exec_xori f s⟩

theorem exec_eq_readTop_branch (hi : i ∈ ([.beq f, .bne f] : List Instr)) :
    ∃ test : Word → Word → Bool, exec i s =
      readTop s fun v1 => readCell s (ea s f.reg f.offset) fun v2 => branch s (test v1 v2) f.immed := by
  obtain rfl | rfl := List.mem_pair.mp hi
  · exact ⟨(· == ·), exec_beq f s⟩
  · exact ⟨(· != ·), exec_bne f s⟩

theorem exec_eq_branchOnCell (hi : i ∈ ([.bgez f, .bgtz f, .blez f, .bltz f] : List Instr)) :
    ∃ test, exec i s = branchOnCell s f test := by
  simp only [List.mem_cons, List.not_mem_nil, or_false] at hi
  obtain rfl | rfl | rfl | rfl := hi
  · exact ⟨_, exec_bgez f s⟩
  · exact ⟨_, exec_bgtz f s⟩
  · exact ⟨_, exec_blez f s⟩
  · exact ⟨_, exec_bltz f s⟩

end SharedShapes

/-! ### The update of a cell and the branch on one -/

section CellOperations

variable {f : ImmFields} {s : State}

/-- The cell that is read is the cell that is written, so one address is checked. -/
theorem updateCell_inside (op : Word → Word) (hcell : inMemory (ea s f.reg f.offset) = true) :
    updateCell s f op = .next ((s.setMem (Memory.write s.mem (ea s f.reg f.offset).toNat
      (op (Memory.read s.mem (ea s f.reg f.offset).toNat)))).setPc (npc s)) := by
  rw [updateCell, readCell_inside _ hcell, writeCell_inside _ hcell]

theorem updateCell_outside (op : Word → Word) (hcell : inMemory (ea s f.reg f.offset) = false) :
    updateCell s f op = faulted s (.addressOutOfRange (ea s f.reg f.offset)) :=
  readCell_eq_faulted _ hcell

/-- The branch by the condition its test decides. -/
theorem branch_of_iff {taken : Bool} {p : Prop} [Decidable p] (immed : BitVec 16) (h : taken = true ↔ p) :
    branch s taken immed = .next (s.setPc (if p then branchTarget s immed else npc s)) := by
  by_cases hp : p
  · rw [if_pos hp, h.mpr hp]
    rfl
  · rw [if_neg hp, Bool.eq_false_iff.mpr fun htaken => hp (h.mp htaken)]
    rfl

theorem branchOnCell_inside {test : Word → Bool} {p : Prop} [Decidable p]
    (hcell : inMemory (ea s f.reg f.offset) = true)
    (h : test (Memory.read s.mem (ea s f.reg f.offset).toNat) = true ↔ p) :
    branchOnCell s f test = .next (s.setPc (if p then branchTarget s f.immed else npc s)) := by
  rw [branchOnCell, readCell_inside _ hcell, branch_of_iff f.immed h]

theorem branchOnCell_outside (test : Word → Bool) (hcell : inMemory (ea s f.reg f.offset) = false) :
    branchOnCell s f test = faulted s (.addressOutOfRange (ea s f.reg f.offset)) :=
  readCell_eq_faulted _ hcell

end CellOperations

/-! ### The tests against zero -/

section Sign

variable (v : Word)

theorem isGez_iff : isGez v = true ↔ v.toInt ≥ 0 := decide_eq_true_iff

theorem isGtz_iff : isGtz v = true ↔ v.toInt > 0 := decide_eq_true_iff

theorem isLez_iff : isLez v = true ↔ v.toInt ≤ 0 := decide_eq_true_iff

theorem isLtz_iff : isLtz v = true ↔ v.toInt < 0 := decide_eq_true_iff

/-- Bit 31 is the sign of the signed reading. -/
theorem toInt_neg_iff_bit31 : v.toInt < 0 ↔ v.getLsbD 31 = true := by
  have hsign : v.getLsbD 31 = decide (v.toInt < 0) :=
    (BitVec.msb_eq_getLsbD_last v).symm.trans BitVec.msb_eq_toInt
  rw [hsign, decide_eq_true_iff]

theorem toInt_nonneg_iff_bit31 : v.toInt ≥ 0 ↔ v.getLsbD 31 = false := by
  rw [ge_iff_le, ← not_lt, toInt_neg_iff_bit31, Bool.not_eq_true]

theorem toInt_eq_zero_iff : v.toInt = 0 ↔ v = 0 := BitVec.toInt_inj (y := 0#32)

theorem toInt_pos_iff_bit31 : v.toInt > 0 ↔ v.getLsbD 31 = false ∧ v ≠ 0 := by
  rw [gt_iff_lt, lt_iff_le_and_ne', ← ge_iff_le, toInt_nonneg_iff_bit31, ne_eq, toInt_eq_zero_iff]

theorem toInt_nonpos_iff_bit31 : v.toInt ≤ 0 ↔ v.getLsbD 31 = true ∨ v = 0 := by
  rw [le_iff_lt_or_eq, toInt_neg_iff_bit31, toInt_eq_zero_iff]

end Sign

/-! ### The obligations -/

/-- Settles O43, by the frame of the effects: each of the five stores to the addressed cell. -/
theorem immediateStoreFrame : Obligations.ImmediateStoreFrame := by
  intro f s t i hi hexec
  have hstore : storeTarget i s = some (ea s f.reg f.offset) := by
    revert i
    simp [storeTarget]
  exact exec_frame_of_store hexec hstore

/-- Settles O29: the five share the update of the cell and its one fault and differ in the word stored. -/
theorem immediateUpdates : Obligations.ImmediateUpdates := by
  intro f s cell v stored
  refine ⟨?_, fun hcell => ?_, fun hcell i hi => ?_⟩
  · refine ⟨?_, ?_, ?_, ?_, ?_⟩ <;> exact encodedOp_of_immWord rfl
  · have hstore (op : Word → Word) : updateCell s f op = stored (op v) := updateCell_inside op hcell
    rw [exec_addi, exec_andi, exec_bori, exec_nori, exec_xori]
    exact ⟨hstore _, hstore _, hstore _, hstore _, hstore _⟩
  · obtain ⟨op, hop⟩ := exec_eq_updateCell s hi
    exact hop.trans (updateCell_outside op hcell)

/-- Settles O30: both reads, and so both address checks, come before the test. -/
theorem equalityBranches : Obligations.EqualityBranches := by
  intro f s sp cell v1 v2 target allFault
  refine ⟨encodedOp_of_immWord rfl, encodedOp_of_immWord rfl, fun hsp hcell => ⟨?_, ?_⟩, fun hsp i hi => ?_,
    fun hsp hcell i hi => ?_⟩
  · rw [exec_beq, readTop_readCell_inside _ hsp hcell]
    exact branch_of_iff f.immed beq_iff_eq
  · rw [exec_bne, readTop_readCell_inside _ hsp hcell, ← ite_not]
    exact branch_of_iff f.immed bne_iff_ne
  · obtain ⟨test, htest⟩ := exec_eq_readTop_branch s hi
    exact htest.trans (readTop_eq_faulted _ hsp)
  · obtain ⟨test, htest⟩ := exec_eq_readTop_branch s hi
    exact htest.trans (readTop_readCell_eq_faulted _ hsp hcell)

/-- Settles O31: the four share the read of the cell and its fault and differ in the test; bit 31 is the sign. -/
theorem zeroBranches : Obligations.ZeroBranches := by
  refine ⟨?_, fun v =>
    ⟨toInt_nonneg_iff_bit31 v, toInt_pos_iff_bit31 v, toInt_nonpos_iff_bit31 v, toInt_neg_iff_bit31 v⟩⟩
  intro f s cell v target
  refine ⟨?_, fun hcell => ?_, fun hcell i hi => ?_⟩
  · refine ⟨?_, ?_, ?_, ?_⟩ <;> exact encodedOp_of_immWord rfl
  · rw [exec_bgez, exec_bgtz, exec_blez, exec_bltz]
    exact ⟨branchOnCell_inside hcell (isGez_iff v), branchOnCell_inside hcell (isGtz_iff v),
      branchOnCell_inside hcell (isLez_iff v), branchOnCell_inside hcell (isLtz_iff v)⟩
  · obtain ⟨test, htest⟩ := exec_eq_branchOnCell s hi
    exact htest.trans (branchOnCell_outside test hcell)

end Sys2Proof.Machine

/-! ## The jumps and calls (spec/44_jump.md)

The encoding and the equation of each instruction; then the bound the guard and the configuration check put on `npc`, and
what it leaves of the jump address. The obligations follow. -/

namespace Sys2Proof

theorem encodedOp_of_jumpWord {i : Instr} {f : JumpFields} {op : BitVec 4} (h : encode i = jumpWord op f) :
    encodedOp i op := by
  rw [encodedOp, h]
  exact opField_jumpWord op f

theorem extractLsb'_eq_zero_of_toNat_lt {n : Nat} {w : BitVec n} {start : Nat} (len : Nat) (h : w.toNat < 2 ^ start) :
    w.extractLsb' start len = 0#len := by
  rw [BitVec.extractLsb', Nat.shiftRight_eq_zero _ _ h]

end Sys2Proof

namespace Sys2Proof.Machine

/-! ### The equation of each instruction -/

section Equations

variable (f : JumpFields) (s : State)

theorem exec_jmpa : exec (.jmpa f) s = transferTo s (jumpAddress s f.addr) := rfl

theorem exec_call : exec (.call f) s = transferTo (s.setReg .ra (npc s)) (jumpAddress s f.addr) := rfl

theorem exec_rtn : exec (.rtn f) s = transferTo s (s.reg .ra) := rfl

end Equations

/-! ### `npc` behind a passed guard -/

section UpperBits

variable {s : State} (hvalid : configValid s.cfg = true) (htext : inText s.cfg s.pc = true)
include hvalid htext

/-- A valid configuration has the data and the stack after the text, so one past the last instruction is still an address of
the array. -/
theorem npc_toNat_lt_memorySize : (npc s).toNat < memorySize := by
  obtain ⟨hdata, hstack, -, htextEnd, -⟩ := configValid_iff.mp hvalid
  obtain ⟨-, hpc⟩ := inText_iff.mp htext
  have hstep : (npc s).toNat ≤ s.pc.toNat + 1 := Nat.mod_le ..
  omega

theorem npc_upperBits_eq_zero : (npc s).extractLsb' 28 4 = 0#4 :=
  extractLsb'_eq_zero_of_toNat_lt 4 (Nat.lt_trans (npc_toNat_lt_memorySize hvalid htext) (by decide))

theorem jumpAddress_eq_zeroExtend (addr : BitVec 28) : jumpAddress s addr = addr.zeroExtend 32 := by
  rw [jumpAddress, npc_upperBits_eq_zero hvalid htext]
  exact (BitVec.setWidth_eq_append (by decide)).symm

end UpperBits

/-! ### The obligations -/

/-- Settles O33: `npc` is below the memory size, so the jump address is the address field zero-extended. -/
theorem jumpUpperBitsAreZero : Obligations.JumpUpperBitsAreZero := by
  intro f s hvalid htext
  rw [exec_jmpa, exec_call, jumpAddress_eq_zeroExtend hvalid htext]
  exact ⟨npc_upperBits_eq_zero hvalid htext, rfl, rfl⟩

/-- Settles O32: the three transfer without a check, CALL after the link is written. -/
theorem jumpCallReturn : Obligations.JumpCallReturn := by
  intro f s target
  rw [exec_jmpa, exec_call, exec_rtn]
  exact ⟨encodedOp_of_jumpWord rfl, rfl, encodedOp_of_jumpWord rfl, rfl, encodedOp_of_jumpWord rfl, rfl⟩

end Sys2Proof.Machine

/-! ## The system calls (spec/45_syscall.md)

Five layers: the encoding; the equation of each instruction in each of its cases; what the scan of a string answers in
each layout; the outcome of PSTR on that answer; which effect changes a register, a cell, a port or `run`. Then the
obligations. -/

namespace Sys2Proof

/-! ### Encodings -/

theorem encodedCode_of_sysWord {i : Instr} {f : SysFields} {code : BitVec 12} (h : encode i = sysWord f code) :
    encodedCode i code := by
  rw [encodedCode, h]
  exact ⟨opField_sysWord f code, funcField_sysWord f code, codeField_sysWord f code⟩

end Sys2Proof

namespace Sys2Proof.Machine

/-! ### The equation of each instruction -/

section Equations

variable (f : SysFields) (s : State)

theorem exec_exit : exec (.exit f) s =
    complete ((s.setRun (.halted (sext9 f.offset))).request (.exit (sext9 f.offset).toInt)) := rfl

theorem exec_pint : exec (.pint f) s =
    readCell s (ea s f.reg f.offset) fun v => complete (s.request (.outInt v.toInt)) := rfl

theorem exec_pch : exec (.pch f) s =
    readCell s (ea s f.reg f.offset) fun v => complete (s.request (.outChar (v.extractLsb' 0 8))) := rfl

theorem exec_stra : exec (.stra f) s = complete (s.setTracing true) := rfl

theorem exec_notr : exec (.notr f) s = complete (s.setTracing false) := rfl

end Equations

section ReadCharacter

variable {f : SysFields} {s : State}

theorem exec_rch_of_answer {c : Word} {rest : List CharAnswer} (hcell : inMemory (ea s f.reg f.offset) = true)
    (hc : nextChar s.input = some (c, rest)) :
    exec (.rch f) s = .next ((((s.setInput rest).request .inChar).setMem
      (Memory.write s.mem (ea s f.reg f.offset).toNat c)).setPc (npc s)) := by
  simp only [exec, execRch, hcell, hc, if_true]
  exact writeCell_inside c hcell

theorem exec_rch_of_no_answer (hcell : inMemory (ea s f.reg f.offset) = true) (hc : nextChar s.input = none) :
    exec (.rch f) s = .fault .inputNeverAnswered := by
  simp only [exec, execRch, hcell, hc, if_true]

/-- The address is checked before the request, so the state is the one the instruction began with. -/
theorem exec_rch_eq_faulted (hcell : inMemory (ea s f.reg f.offset) = false) :
    exec (.rch f) s = faulted s (.addressOutOfRange (ea s f.reg f.offset)) :=
  if_neg (Bool.eq_false_iff.mp hcell)

end ReadCharacter

/-- The two that print a cell share its read and the fault of that read. -/
theorem exec_print_eq_readCell (s : State) {f : SysFields} {i : Instr} (hi : i ∈ ([.pint f, .pch f] : List Instr)) :
    ∃ k, exec i s = readCell s (ea s f.reg f.offset) k := by
  obtain rfl | rfl := List.mem_pair.mp hi
  · exact ⟨_, exec_pint f s⟩
  · exact ⟨_, exec_pch f s⟩

/-! ### The scan of a string

The scan of `n` words is a search for the first zero among the characters, or the words, they hold. -/

/-- The words of the `n` cells from address `p`. -/
def cellWords (m : Memory) (p n : Nat) : List Word := (List.range' p n).map (Memory.read m)

/-- The characters packed four to a word in the `n` cells from address `p`. -/
def packedChars (m : Memory) (p n : Nat) : List Byte := (List.range (4 * n)).map (packedChar m p)

@[simp] theorem length_cellWords (m : Memory) (p n : Nat) : (cellWords m p n).length = n := by simp [cellWords]

@[simp] theorem length_packedChars (m : Memory) (p n : Nat) : (packedChars m p n).length = 4 * n := by
  simp [packedChars]

theorem cellWords_succ (m : Memory) (p n : Nat) :
    cellWords m p (n + 1) = Memory.read m p :: cellWords m (p + 1) n := rfl

theorem packedChar_add_four (m : Memory) (p k : Nat) : packedChar m p (4 + k) = packedChar m (p + 1) k := by
  have hdiv : p + (4 + k) / 4 = p + 1 + k / 4 := by omega
  have hmod : (4 + k) % 4 = k % 4 := by omega
  rw [packedChar, packedChar, hdiv, hmod]

theorem packedChars_succ (m : Memory) (p n : Nat) :
    packedChars m p (n + 1) = wordBytes (Memory.read m p) ++ packedChars m (p + 1) n := by
  have hfirst : (List.range 4).map (packedChar m p) = wordBytes (Memory.read m p) := rfl
  rw [packedChars, Nat.mul_succ, Nat.add_comm, List.range_add, List.map_append, hfirst, List.map_map]
  exact congrArg _ (List.map_congr_left fun k _ => packedChar_add_four m p k)

section Scan

variable {m : Memory} {l : StrLayout} {chars : List Byte} {p : Nat} (n : Nat)

theorem scanString_of_last_word (h : wordChars l (Memory.read m p) = (chars, true)) :
    scanString m l (n + 1) p = .ok chars := by
  simp only [scanString, h]

theorem scanString_of_inner_word (h : wordChars l (Memory.read m p) = (chars, false)) :
    scanString m l (n + 1) p = (scanString m l n (p + 1)).map (chars ++ ·) := by
  simp only [scanString, h]
  cases scanString m l n (p + 1) <;> rfl

end Scan

theorem takeWhile_append_of_stop {α : Type} {q : α → Bool} {xs : List α} {x : α} (ys : List α) (hx : x ∈ xs)
    (hq : q x = false) : (xs ++ ys).takeWhile q = xs.takeWhile q := by
  rw [List.takeWhile_append, if_neg]
  intro hlength
  have hself : xs.takeWhile q = xs := (List.takeWhile_prefix q).eq_of_length hlength
  exact Bool.false_ne_true (hq.symm.trans (List.takeWhile_eq_self_iff.mp hself x hx))

theorem scanString_packedLe (m : Memory) (n p : Nat) :
    scanString m .packedLe n p =
      if 0 ∈ packedChars m p n then .ok ((packedChars m p n).takeWhile (· != 0)) else .error (p + n) := by
  induction n generalizing p with
  | zero => rfl
  | succ n ih =>
    rw [packedChars_succ]
    by_cases h0 : 0 ∈ wordBytes (Memory.read m p)
    · have hlast : wordChars .packedLe (Memory.read m p) =
          ((wordBytes (Memory.read m p)).takeWhile (· != 0), true) := by
        simp only [wordChars, List.contains_iff_mem.mpr h0]
      rw [scanString_of_last_word n hlast, if_pos (List.mem_append_left _ h0), takeWhile_append_of_stop _ h0 rfl]
    · have hall : ∀ b ∈ wordBytes (Memory.read m p), (b != 0) = true :=
        fun b hb => bne_iff_ne.mpr fun hb0 => h0 (hb0 ▸ hb)
      have hno : (wordBytes (Memory.read m p)).contains 0 = false :=
        Bool.eq_false_iff.mpr (mt List.contains_iff_mem.mp h0)
      have hinner : wordChars .packedLe (Memory.read m p) = (wordBytes (Memory.read m p), false) := by
        simp only [wordChars, List.takeWhile_eq_self_iff.mpr hall, hno]
      rw [scanString_of_inner_word n hinner, ih, List.takeWhile_append_of_pos hall]
      simp only [List.mem_append, h0, false_or]
      split
      · rfl
      · exact congrArg Except.error (by omega)

theorem scanString_wordPerChar (m : Memory) (n p : Nat) :
    scanString m .wordPerChar n p =
      if 0 ∈ cellWords m p n then
        .ok (((cellWords m p n).takeWhile (· != 0)).map (·.extractLsb' 0 8))
      else .error (p + n) := by
  induction n generalizing p with
  | zero => rfl
  | succ n ih =>
    rw [cellWords_succ]
    by_cases h0 : Memory.read m p = 0
    · have hlast : wordChars .wordPerChar (Memory.read m p) = ([], true) := if_pos h0
      rw [scanString_of_last_word n hlast]
      simp [h0]
    · have hinner : wordChars .wordPerChar (Memory.read m p) = ([(Memory.read m p).extractLsb' 0 8], false) := if_neg h0
      rw [scanString_of_inner_word n hinner, ih, List.takeWhile_cons_of_pos (p := (· != 0)) (bne_iff_ne.mpr h0)]
      simp only [List.mem_cons, Ne.symm h0, false_or]
      split
      · rfl
      · exact congrArg Except.error (by omega)

/-- The elements before the first zero, by its position. -/
theorem takeWhile_eq_take_of_first_zero {w n : Nat} {xs : List (BitVec w)} (hn : n < xs.length) (hzero : xs[n] = 0)
    (hbefore : ∀ (k : Nat) (hk : k < n), xs[k] ≠ 0) : xs.takeWhile (· != 0) = xs.take n := by
  have hidx : xs.findIdx (fun x => !(x != 0)) = n := by
    rw [List.findIdx_eq hn]
    exact ⟨by simpa using hzero, fun k hk => by simpa using hbefore k hk⟩
  rw [List.takeWhile_eq_take_findIdx_not, hidx]

section FirstZero

variable {m : Memory} {p n : Nat}

theorem getElem_packedChars {k : Nat} (hk : k < (packedChars m p n).length) :
    (packedChars m p n)[k] = packedChar m p k := by
  simp [packedChars]

theorem getElem_cellWords {k : Nat} (hk : k < (cellWords m p n).length) :
    (cellWords m p n)[k] = Memory.read m (p + k) := by
  simp [cellWords]

theorem scanString_packedLe_eq_ok {bytes : List Byte}
    (hbytes : ∀ (k : Nat) (hk : k < bytes.length), bytes[k] ≠ 0 ∧ packedChar m p k = bytes[k])
    (hend : packedChar m p bytes.length = 0) (hfit : bytes.length / 4 < n) :
    scanString m .packedLe n p = .ok bytes := by
  have hlength : bytes.length < (packedChars m p n).length := by rw [length_packedChars]; omega
  have hzero : (packedChars m p n)[bytes.length] = 0 := (getElem_packedChars hlength).trans hend
  have hchars (k : Nat) (hk : k < bytes.length) : (packedChars m p n)[k] = bytes[k] :=
    (getElem_packedChars _).trans (hbytes k hk).2
  have htake : (packedChars m p n).take bytes.length = bytes :=
    List.ext_getElem (List.length_take_of_le hlength.le) fun k _ hk => List.getElem_take.trans (hchars k hk)
  rw [scanString_packedLe, if_pos (hzero ▸ List.getElem_mem hlength),
    takeWhile_eq_take_of_first_zero hlength hzero fun k hk => hchars k hk ▸ (hbytes k hk).1, htake]

theorem scanString_packedLe_eq_error (h : ∀ k, k / 4 < n → packedChar m p k ≠ 0) :
    scanString m .packedLe n p = .error (p + n) := by
  rw [scanString_packedLe, if_neg]
  intro hmem
  obtain ⟨k, hk, hzero⟩ := List.getElem_of_mem hmem
  rw [getElem_packedChars hk] at hzero
  rw [length_packedChars] at hk
  exact h k (by omega) hzero

theorem scanString_wordPerChar_eq_ok {bytes : List Byte}
    (hbytes : ∀ (k : Nat) (hk : k < bytes.length),
      Memory.read m (p + k) ≠ 0 ∧ (Memory.read m (p + k)).extractLsb' 0 8 = bytes[k])
    (hend : Memory.read m (p + bytes.length) = 0) (hfit : bytes.length < n) :
    scanString m .wordPerChar n p = .ok bytes := by
  have hlength : bytes.length < (cellWords m p n).length := by simpa using hfit
  have hzero : (cellWords m p n)[bytes.length] = 0 := (getElem_cellWords hlength).trans hend
  have hbefore (k : Nat) (hk : k < bytes.length) : (cellWords m p n)[k] ≠ 0 :=
    getElem_cellWords (hk.trans hlength) ▸ (hbytes k hk).1
  have hchars : ((cellWords m p n).take bytes.length).map (·.extractLsb' 0 8) = bytes := by
    refine List.ext_getElem (by simp [hfit.le]) fun k _ hk => ?_
    rw [List.getElem_map, List.getElem_take, getElem_cellWords]
    exact (hbytes k hk).2
  rw [scanString_wordPerChar, if_pos (hzero ▸ List.getElem_mem hlength),
    takeWhile_eq_take_of_first_zero hlength hzero hbefore, hchars]

theorem scanString_wordPerChar_eq_error (h : ∀ k < n, Memory.read m (p + k) ≠ 0) :
    scanString m .wordPerChar n p = .error (p + n) := by
  rw [scanString_wordPerChar, if_neg]
  intro hmem
  obtain ⟨k, hk, hzero⟩ := List.getElem_of_mem hmem
  rw [getElem_cellWords hk] at hzero
  exact h k (by simpa using hk) hzero

end FirstZero

theorem strAt_of_layout {s : State} {l : StrLayout} (h : s.strLayout = l) (a : Word) :
    strAt s a = scanString s.mem l (memorySize - a.toNat) a.toNat := by
  rw [strAt, h]

/-! ### The outcome of PSTR -/

section PrintString

variable {f : SysFields} {s : State}

theorem exec_pstr_of_ok {bytes : List Byte} (h : strAt s (ea s f.reg f.offset) = .ok bytes) :
    exec (.pstr f) s = .next ((s.request (.outStr bytes)).setPc (npc s)) := by
  simp only [exec, execPstr, h, complete_eq]
  rfl

/-- The scan can fail only past the end of the array, which is where it began or 32768. -/
theorem exec_pstr_of_error {q : Nat} (h : strAt s (ea s f.reg f.offset) = .error q) :
    exec (.pstr f) s = faulted s (.addressOutOfRange
      (if (ea s f.reg f.offset).toNat < memorySize then 32768#32 else ea s f.reg f.offset)) := by
  have hq : q = (ea s f.reg f.offset).toNat + (memorySize - (ea s f.reg f.offset).toNat) := scanString_error h
  have hsize : memorySize = 32768 := rfl
  simp only [exec, execPstr, h, raise_eq_faulted]
  split
  · have hend : q = 32768 := by omega
    rw [hend]
  · have hstart : q = (ea s f.reg f.offset).toNat := by omega
    rw [hstart, BitVec.ofNat_toNat, BitVec.setWidth_eq]

end PrintString

/-! ### Which effect changes a register, a cell, a port or `run` -/

theorem Effect.requests_eq_or_append {i : Instr} {s t : State} (e : Effect i s t) :
    t.requests = s.requests ∨ ∃ q, mayRequest i q ∧ t.requests = s.requests ++ [q] := by
  cases e with
  | output q h _ _ _ => exact .inr ⟨q, h, rfl⟩
  | exit f h => exact .inr ⟨.exit (sext9 f.offset).toInt, ⟨f, h⟩, rfl⟩
  | input f _ _ h _ _ => exact .inr ⟨.inChar, ⟨f, h⟩, rfl⟩
  | _ => exact .inl rfl

theorem Effect.rch_of_input_ne {i : Instr} {s t : State} (e : Effect i s t) (h : t.input ≠ s.input) :
    ∃ f, i = .rch f ∧ t.input = s.input.tail ∧ t.requests = s.requests ++ [.inChar] := by
  cases e with
  | input f c rest hi hc _ => exact ⟨f, hi, (nextChar_some hc).1, rfl⟩
  | _ => exact absurd rfl h

theorem Effect.sameRegs {i : Instr} {s t : State} (e : Effect i s t) (hi : regTarget i = none) :
    sameRegsExcept [] s t := by
  refine fun r _ => by_contra fun hne => ?_
  have htarget := e.regTarget_of_reg_ne hne
  rw [hi] at htarget
  cases htarget

theorem Effect.sameHiLo {i : Instr} {s t : State} (e : Effect i s t) (hi : ∀ f, i ≠ .mul f ∧ i ≠ .div f) :
    sameHiLo s t := by
  cases e with
  | hiLo _ _ h => exact h.elim (fun ⟨f, hf⟩ => absurd hf (hi f).1) (fun ⟨f, hf⟩ => absurd hf (hi f).2)
  | _ => exact ⟨rfl, rfl⟩

theorem Effect.target_of_cell_ne {i : Instr} {s t : State} {a : Nat} (e : Effect i s t)
    (h : Memory.read t.mem a ≠ Memory.read s.mem a) :
    (∃ w, storeTarget i s = some w ∧ a = w.toNat) ∨ ∃ f, i = .rch f ∧ a = (ea s f.reg f.offset).toNat := by
  cases e with
  | store w v hs _ _ =>
    exact .inl ⟨w, hs, by_contra fun ha => h (Memory.read_write_other s.mem v ha)⟩
  | input f c _ hi _ _ =>
    exact .inr ⟨f, hi, by_contra fun ha => h (Memory.read_write_other s.mem c ha)⟩
  | _ => exact absurd rfl h

theorem Effect.runsOnOrFaults_or_exit {i : Instr} {s t : State} (e : Effect i s t) :
    runsOnOrFaults s t ∨ ∃ f, i = .exit f := by
  cases e with
  | fault r _ => exact .inl (.inr ⟨r, rfl⟩)
  | exit f h => exact .inr ⟨f, h⟩
  | _ => exact .inl (.inl rfl)

/-! ### The obligations -/

/-- Settles O15: a fault before execution touches no port, and an effect issues at most one request. -/
theorem atMostOneRequestPerStep : Obligations.AtMostOneRequestPerStep := by
  intro s t hstep
  obtain ⟨r, rfl⟩ | ⟨iw, i, hfetch, e⟩ := step_effect hstep
  · exact ⟨.inl rfl, .inl rfl⟩
  · have hrequests := e.requests_eq_or_append
    have hinput := e.rch_of_input_ne
    rw [traced_requests] at hrequests hinput
    rw [traced_input] at hinput
    refine ⟨hrequests.imp_right fun ⟨q, hq, h⟩ => ⟨q, iw, i, hfetch, hq, h⟩,
      or_iff_not_imp_left.mpr fun hne => ?_⟩
    obtain ⟨f, rfl, h⟩ := hinput hne
    exact ⟨iw, f, hfetch, h⟩

/-- Settles O35: the zero byte lies in a word of the array, or the scan reaches the end of the array. -/
theorem printPackedString : Obligations.PrintPackedString := by
  intro f s hlayout start a
  have hstr := strAt_of_layout hlayout start
  refine ⟨encodedCode_of_sysWord rfl, fun bytes hbytes hend hfit => ?_, fun hnone => ?_⟩
  · exact exec_pstr_of_ok (hstr.trans (scanString_packedLe_eq_ok hbytes hend (by omega)))
  · exact exec_pstr_of_error (hstr.trans (scanString_packedLe_eq_error fun k hk => hnone k (by omega)))

/-- Settles O36: the zero word lies in the array, or the scan reaches the end of the array. -/
theorem printWordPerCharString : Obligations.PrintWordPerCharString := by
  intro f s hlayout start a
  have hstr := strAt_of_layout hlayout start
  refine ⟨fun bytes hbytes hend hfit => ?_, fun hnone => ?_⟩
  · exact exec_pstr_of_ok (hstr.trans (scanString_wordPerChar_eq_ok hbytes hend (by omega)))
  · exact exec_pstr_of_error (hstr.trans (scanString_wordPerChar_eq_error fun k hk => hnone k (by omega)))

/-- Settles O47: no system call has a destination register or a store target, and a field that changes tells which of the
seven it is. -/
theorem systemCallFrame : Obligations.SystemCallFrame := by
  intro f s t i hi hexec
  have e := exec_next hexec
  have hcall : storeTarget i s = none ∧ regTarget i = none ∧ (∀ g, i ≠ .mul g ∧ i ≠ .div g) ∧
      ∀ g, i = .rch g ∨ i = .stra g ∨ i = .notr g ∨ i = .exit g → g = f := by
    revert i
    simp [storeTarget, regTarget]
  obtain ⟨hstore, hreg, hmuldiv, hfields⟩ := hcall
  refine ⟨e.sameRegs hreg, e.sameHiLo hmuldiv, e.sameConfig, e.trace_eq, fun a ha => by_contra fun hne => ?_,
    fun hrch => by_contra fun hne => ?_, fun hstra hnotr => by_contra fun hne => ?_, fun hexit => ?_,
    fun hswitch => ?_⟩
  · obtain ⟨w, hw, -⟩ | ⟨g, rfl, rfl⟩ := e.target_of_cell_ne hne
    · cases hstore.symm.trans hw
    · obtain rfl := hfields g (.inl rfl)
      simp at ha
  · obtain ⟨g, rfl, -⟩ := e.rch_of_input_ne hne
    obtain rfl := hfields g (.inl rfl)
    exact hrch rfl
  · obtain ⟨g, rfl | rfl⟩ := e.stra_or_notr_of_tracing_ne hne
    · obtain rfl := hfields g (.inr (.inl rfl))
      exact hstra rfl
    · obtain rfl := hfields g (.inr (.inr (.inl rfl)))
      exact hnotr rfl
  · refine e.runsOnOrFaults_or_exit.resolve_right ?_
    rintro ⟨g, rfl⟩
    obtain rfl := hfields g (.inr (.inr (.inr rfl)))
    exact hexit rfl
  · obtain rfl | rfl := hswitch
    · obtain rfl := next_inj ((exec_stra f s).symm.trans hexec)
      rfl
    · obtain rfl := next_inj ((exec_notr f s).symm.trans hexec)
      rfl

/-- Settles O34: the code in `run` and in the request are one word, whose signed reading is the offset's. -/
theorem exitHalts : Obligations.ExitHalts := by
  intro f s
  obtain ⟨hoffset, hlow, hhigh⟩ := sext9_toInt f.offset
  rw [exec_exit, hoffset]
  rw [hoffset] at hlow hhigh
  exact ⟨encodedCode_of_sysWord rfl, hlow, hhigh, rfl, rfl⟩

/-- Settles O37: the two share the read of the cell and its fault and differ in the request. -/
theorem printIntegerAndCharacter : Obligations.PrintIntegerAndCharacter := by
  intro f s cell v
  refine ⟨encodedCode_of_sysWord rfl, encodedCode_of_sysWord rfl, fun hcell => ?_, fun hcell i hi => ?_⟩
  · rw [exec_pint, exec_pch]
    exact ⟨readCell_inside _ hcell, readCell_inside _ hcell⟩
  · obtain ⟨k, hk⟩ := exec_print_eq_readCell s hi
    exact hk.trans (readCell_eq_faulted k hcell)

/-- Settles O38: the two kinds of answer are the word `nextChar` reads from them. -/
theorem readCharacter : Obligations.ReadCharacter := by
  intro f s b rest cell stored
  refine ⟨encodedCode_of_sysWord rfl, fun hcell hinput => ?_, fun hcell hinput => ?_, exec_rch_eq_faulted⟩
  · exact exec_rch_of_answer hcell (congrArg nextChar hinput)
  · exact exec_rch_of_answer hcell (congrArg nextChar hinput)

/-- Settles O39: an input that is used up stays so, and an answer that never comes leaves no next state. -/
theorem readCharacterWithoutAnswer : Obligations.ReadCharacterWithoutAnswer := by
  intro f s cell hcell
  refine ⟨fun hinput => ?_, fun rest hinput => exec_rch_of_no_answer hcell (congrArg nextChar hinput)⟩
  rw [hinput]
  exact exec_rch_of_answer hcell (congrArg nextChar hinput)

/-- Settles O40. -/
theorem tracingSwitches : Obligations.TracingSwitches :=
  fun f s => ⟨encodedCode_of_sysWord rfl, exec_stra f s, encodedCode_of_sysWord rfl, exec_notr f s⟩

end Sys2Proof.Machine

/-! ## The exceptions (spec/60_exceptions.md)

Two layers: what a state in `Faulted` says of the instruction or the step that led to it; then, for the other half of the
table of R192, a state in which every address is outside the array and one in which every address holds 0. -/

namespace Sys2Proof.Machine

/-! ### What a fault says -/

/-- Of the effects of an instruction the fault alone ends in `Faulted`. -/
theorem Effect.fault_of_run_faulted {i : Instr} {s t : State} {r : FaultReason} {a : Word} (e : Effect i s t)
    (hrun : s.run = .running) (h : t.run = .faulted r a) : mayRaise i r ∧ a = s.pc ∧ t = faultEntry s r := by
  cases e with
  | fault q hq =>
    obtain ⟨rfl, rfl⟩ := RunState.faulted.inj h
    exact ⟨hq, rfl, rfl⟩
  | exit f _ => cases h
  | _ => exact RunState.noConfusion (hrun.symm.trans h)

/-- A fault is entered from the state the step began with or, in execution, from that state with the event of the trace
step. -/
theorem step_faulted {s t : State} {r : FaultReason} {a : Word} (hstep : step s = .next t)
    (h : t.run = .faulted r a) :
    a = s.pc ∧ (t = faultEntry s r ∨ ∃ iw i, t = faultEntry (traced s iw i) r) := by
  have hrun := (step_next hstep).1
  obtain ⟨q, rfl⟩ | ⟨iw, i, -, e⟩ := step_effect hstep
  · obtain ⟨rfl, rfl⟩ := RunState.faulted.inj h
    exact ⟨rfl, .inl rfl⟩
  · obtain ⟨-, ha, ht⟩ := e.fault_of_run_faulted ((traced_run s iw i).trans hrun) h
    exact ⟨ha.trans (traced_pc s iw i), .inr ⟨iw, i, ht⟩⟩

/-! ### The states in which an instruction faults -/

/-- A string that begins outside the array has no character in it. -/
theorem strAt_outside {s : State} {a : Word} (h : inMemory a = false) : strAt s a = .error a.toNat := by
  have hout : memorySize ≤ a.toNat := not_lt.mp (mt inMemory_iff.mpr (Bool.eq_false_iff.mp h))
  rw [strAt, Nat.sub_eq_zero_of_le hout, scanString]

/-- With every address outside the array the first access of an instruction faults: the read of `top`, of the source cell
or of the addressed cell, the store of an instruction that reads none, the scan of PSTR, or the check of RCH. -/
theorem exec_eq_faulted_of_outside {i : Instr} {s : State} (hsp : inMemory (s.reg .sp) = false)
    (hea : ∀ r o, inMemory (ea s r o) = false) (hi : accessesMemory i = true) :
    ∃ a, exec i s = faulted s (.addressOutOfRange a) := by
  cases i <;> simp only [exec]
  case add f | sub f | and f | bor f | nor f | xor f => exact ⟨_, topBinary_top_outside _ hsp⟩
  case mul f | div f | sll f | srl f | beq f | bne f => exact ⟨_, readTop_eq_faulted _ hsp⟩
  case cpw f | neg f | lwr f => exact ⟨_, readCell_eq_faulted _ (hea f.rs f.os)⟩
  case jmp f | csi f | pint f | pch f => exact ⟨_, readCell_eq_faulted _ (hea f.reg f.offset)⟩
  case addi f | andi f | bori f | nori f | xori f => exact ⟨_, updateCell_outside _ (hea f.reg f.offset)⟩
  case bgez f | bgtz f | blez f | bltz f => exact ⟨_, branchOnCell_outside _ (hea f.reg f.offset)⟩
  case swr f | sca f => exact ⟨_, writeCell_eq_faulted _ (hea f.rt f.ot)⟩
  case lit f | cfhi f | cflo f => exact ⟨_, writeCell_eq_faulted _ (hea f.reg f.offset)⟩
  case pstr f => exact ⟨_, exec_pstr_of_error (strAt_outside (hea f.reg f.offset))⟩
  case rch f => exact ⟨_, exec_rch_eq_faulted (hea f.reg f.offset)⟩
  case nop f | cpr f | ari f | sri f | jrel f | jmpa f | call f | rtn f | exit f | stra f | notr f => cases hi

/-- The running machine with one word in every register and nothing in memory. -/
def uniform (v : Word) : State :=
  { State.reset with regs := { gp := v, sp := v, fp := v, r3 := v, r4 := v, r5 := v, r6 := v, ra := v } }

theorem uniform_reg (v : Word) (r : Reg) : (uniform v).reg r = v := by cases r <;> rfl

theorem inMemory_ea_uniform (v : Word) (r : Reg) (o : BitVec 9) :
    inMemory (ea (uniform v) r o) = true ↔ ((v.toNat : Int) + o.toInt) % 2 ^ 32 < 32768 := by
  obtain ⟨-, -, -, hin⟩ := effectiveAddressLaw (uniform v) r o
  rwa [uniform_reg] at hin

/-- No offset reaches back into the array from 65536. -/
theorem ea_uniform_outside (r : Reg) (o : BitVec 9) : inMemory (ea (uniform 65536#32) r o) = false := by
  obtain ⟨-, hlow, hhigh, -⟩ := effectiveAddressLaw (uniform 65536#32) r o
  rw [Bool.eq_false_iff, ne_eq, inMemory_ea_uniform, BitVec.toNat_ofNat]
  omega

/-- No offset leaves the array from 256. -/
theorem ea_uniform_inside (r : Reg) (o : BitVec 9) : inMemory (ea (uniform 256#32) r o) = true := by
  obtain ⟨-, hlow, hhigh, -⟩ := effectiveAddressLaw (uniform 256#32) r o
  rw [inMemory_ea_uniform, BitVec.toNat_ofNat]
  omega

theorem exec_div_uniform (f : OthcFields) :
    exec (.div f) (uniform 256#32) = faulted (uniform 256#32) .divideByZero := by
  obtain ⟨-, -, -, -, hzero⟩ := divideRemainderQuotient f (uniform 256#32)
  exact hzero rfl (ea_uniform_inside f.reg f.offset) rfl

/-! ### The obligations -/

/-- Settles O48: a fault is entered from the state the instruction began with, which differs from the state the step began
with in the trace alone. -/
theorem faultsArePrecise : Obligations.FaultsArePrecise := by
  refine ⟨fun i s t r a hrun hexec h => ?_, fun s t r a hstep h => ?_⟩
  · obtain ⟨-, -, ht⟩ := (exec_next hexec).fault_of_run_faulted hrun h
    exact ht
  · obtain ⟨ha, rfl | ⟨iw, i, rfl⟩⟩ := step_faulted hstep h
    · exact ⟨ha, rfl, rfl, rfl, rfl, rfl, rfl, rfl, rfl, rfl, rfl⟩
    · exact ⟨ha, by simp⟩

/-- Settles O49: the effects of an instruction carry the table, and the two uniform states raise the faults it gives. -/
theorem faultCausesByInstruction : Obligations.FaultCausesByInstruction := by
  refine ⟨fun i s t r a hrun hexec h => ?_, fun i hi => ?_, fun f => ⟨uniform 256#32, rfl, exec_div_uniform f⟩⟩
  · obtain ⟨hr, -, -⟩ := (exec_next hexec).fault_of_run_faulted hrun h
    exact hr
  · obtain ⟨a, ha⟩ := exec_eq_faulted_of_outside rfl ea_uniform_outside hi
    exact ⟨uniform 65536#32, a, rfl, ha⟩

end Sys2Proof.Machine

/-! ## Launch (spec/70_reset_and_hazards.md)

The reset sequence starts the core exactly on the check; a checked configuration keeps the loaded segments in the array. -/

namespace Sys2Proof.Machine

/-- Neither the memory nor the input has a say in whether the core starts. -/
theorem applyReset_isSome (c : ConfigInputs) (m : Memory) (input : List CharAnswer) :
    (applyReset c m input).isSome = configValid c.regs := by
  unfold applyReset
  split
  · next hvalid => exact hvalid.symm
  · next hinvalid => exact (Bool.eq_false_iff.mpr hinvalid).symm

theorem loadImage_wf {c : ConfigRegs} {text data : List Word}
    (htext : c.textStart.toNat + text.length ≤ memorySize) (hdata : c.dataStart.toNat + data.length ≤ memorySize) :
    Memory.wf (loadImage c text data) = true :=
  loadWords_wf data (loadWords_wf text rfl htext) hdata

/-- Settles O57: the text ends before the data and the data before the stack's bottom, which is in the array. -/
theorem launchMeetsInvariant : Obligations.LaunchMeetsInvariant := by
  intro c text data input s hlaunch
  obtain ⟨htext, hdata, hvalid, rfl⟩ := launch_eq_some hlaunch
  obtain ⟨hds, hsb, -, htd, hdl⟩ := configValid_iff.mp hvalid
  have hwf : Memory.wf (loadImage c.regs text data) = true := loadImage_wf (by omega) (by omega)
  exact atReset_inv input hwf hvalid

/-- Settles O58: the check, read as inequalities, is the five conditions. -/
theorem configurationCheck : Obligations.ConfigurationCheck := by
  intro c m input
  rw [applyReset_isSome]
  exact configValid_iff

end Sys2Proof.Machine

/-! ## The opcode table (spec/opcode_table.json, spec/95_test_vectors.md)

The word of an instruction agrees with its row. A word that agrees with a row therefore has the codes of an encoded
instruction of that row, and the decoder tells instructions apart by the codes alone. -/

namespace Sys2Proof

theorem encode_agrees_tableRow : ∀ i : Instr, encode i &&& i.tableRow.2 = i.tableRow.1
  | .nop f => Laws.MatchesRow.nop f | .add f => Laws.MatchesRow.add f | .sub f => Laws.MatchesRow.sub f
  | .cpw f => Laws.MatchesRow.cpw f | .cpr f => Laws.MatchesRow.cpr f | .and f => Laws.MatchesRow.and f
  | .bor f => Laws.MatchesRow.bor f | .nor f => Laws.MatchesRow.nor f | .xor f => Laws.MatchesRow.xor f
  | .lwr f => Laws.MatchesRow.lwr f | .swr f => Laws.MatchesRow.swr f | .sca f => Laws.MatchesRow.sca f
  | .neg f => Laws.MatchesRow.neg f
  | .lit f => Laws.MatchesRow.lit f | .ari f => Laws.MatchesRow.ari f | .sri f => Laws.MatchesRow.sri f
  | .mul f => Laws.MatchesRow.mul f | .div f => Laws.MatchesRow.div f | .cfhi f => Laws.MatchesRow.cfhi f
  | .cflo f => Laws.MatchesRow.cflo f | .sll f => Laws.MatchesRow.sll f | .srl f => Laws.MatchesRow.srl f
  | .jmp f => Laws.MatchesRow.jmp f | .csi f => Laws.MatchesRow.csi f | .jrel f => Laws.MatchesRow.jrel f
  | .addi f => Laws.MatchesRow.addi f | .andi f => Laws.MatchesRow.andi f | .bori f => Laws.MatchesRow.bori f
  | .nori f => Laws.MatchesRow.nori f | .xori f => Laws.MatchesRow.xori f
  | .beq f => Laws.MatchesRow.beq f | .bgez f => Laws.MatchesRow.bgez f | .bgtz f => Laws.MatchesRow.bgtz f
  | .blez f => Laws.MatchesRow.blez f | .bltz f => Laws.MatchesRow.bltz f | .bne f => Laws.MatchesRow.bne f
  | .jmpa f => Laws.MatchesRow.jmpa f | .call f => Laws.MatchesRow.call f | .rtn f => Laws.MatchesRow.rtn f
  | .exit f => Laws.MatchesRow.exit f | .pstr f => Laws.MatchesRow.pstr f | .pint f => Laws.MatchesRow.pint f
  | .pch f => Laws.MatchesRow.pch f | .rch f => Laws.MatchesRow.rch f
  | .stra f => Laws.MatchesRow.stra f | .notr f => Laws.MatchesRow.notr f

/-- Words alike under a mask are alike in every slice the mask keeps whole. -/
theorem slice_eq_of_and_eq {v w mask : Word} (h : w &&& mask = v &&& mask) (s k : Nat)
    (hmask : mask.extractLsb' s k = BitVec.allOnes k) : w.extractLsb' s k = v.extractLsb' s k := by
  have hslice := congrArg (BitVec.extractLsb' s k) h
  rwa [BitVec.extractLsb'_and, BitVec.extractLsb'_and, hmask, BitVec.and_allOnes, BitVec.and_allOnes] at hslice

theorem fields_eq_of_mask_func {v w : Word} (h : w &&& 0xF000000F#32 = v &&& 0xF000000F#32) :
    opField w = opField v ∧ funcField w = funcField v :=
  ⟨slice_eq_of_and_eq h 28 4 (by decide), slice_eq_of_and_eq h 0 4 (by decide)⟩

theorem opField_eq_of_mask_op {v w : Word} (h : w &&& 0xF0000000#32 = v &&& 0xF0000000#32) : opField w = opField v :=
  slice_eq_of_and_eq h 28 4 (by decide)

theorem fields_eq_of_mask_code {v w : Word} (h : w &&& 0xF000FFFF#32 = v &&& 0xF000FFFF#32) :
    opField w = opField v ∧ funcField w = funcField v ∧ codeField w = codeField v :=
  ⟨slice_eq_of_and_eq h 28 4 (by decide), slice_eq_of_and_eq h 0 4 (by decide), slice_eq_of_and_eq h 4 12 (by decide)⟩

theorem decode_of_agrees {w : Word} {j : Instr} (h : w &&& j.tableRow.2 = j.tableRow.1) :
    ∃ i, decode w = .insn i ∧ i.tableRow = j.tableRow := by
  have hj : w &&& j.tableRow.2 = encode j &&& j.tableRow.2 := h.trans (encode_agrees_tableRow j).symm
  cases j with
  | nop f | add f | sub f | cpw f | cpr f | and f | bor f | nor f | xor f | lwr f | swr f | sca f | neg f =>
    obtain ⟨hop, hfunc⟩ := fields_eq_of_mask_func hj
    simp [decode, decodeComp, hop, hfunc, encode, Instr.tableRow]
  | lit f | ari f | sri f | mul f | div f | cfhi f | cflo f | sll f | srl f | jmp f | csi f | jrel f =>
    obtain ⟨hop, hfunc⟩ := fields_eq_of_mask_func hj
    simp [decode, decodeOthc, hop, hfunc, encode, Instr.tableRow]
  | addi f | andi f | bori f | nori f | xori f | beq f | bgez f | bgtz f | blez f | bltz f | bne f | jmpa f | call f
  | rtn f =>
    have hop := opField_eq_of_mask_op hj
    simp [decode, hop, encode, Instr.tableRow]
  | exit f | pstr f | pint f | pch f | rch f | stra f | notr f =>
    obtain ⟨hop, hfunc, hcode⟩ := fields_eq_of_mask_code hj
    simp [decode, decodeOthc, decodeSys, hop, hfunc, hcode, encode, Instr.tableRow]

/-! ### The obligations -/

/-- Settles O4: a decoded word is the word of its instruction, which agrees with its row, and the codes of a row lead the
decoder to an instruction of that row. -/
theorem decodedWordMatchesItsRow : Obligations.DecodedWordMatchesItsRow := by
  refine ⟨fun w i h => ?_, fun w j h => decode_of_agrees h⟩
  rw [← encode_of_decode h]
  exact encode_agrees_tableRow i

/-- Settles O5: closed words, which the decoder evaluates. -/
theorem specWordsDecode : Obligations.SpecWordsDecode := by
  unfold Obligations.SpecWordsDecode
  decide

end Sys2Proof
